-- ==== Sys2Proof/Word.lean ====
section
/-! DEFINITION. The value types of RDC/CSE: bytes, 32-bit payloads, and the 5-byte wire frame
(spec/00_scope.md R4, R7; spec/30_encoding.md R50). -/

namespace Sys2Proof

/-- One byte of a frame, a status byte, a percent, a code or a register identifier (R4). -/
abbrev Byte := BitVec 8

/-- A 32-bit payload, or the content of one chip register (R4 `PAYLOAD_W`, R30). -/
abbrev Word := BitVec 32

/-- A wire frame: exactly five bytes, `b0` first on the bus (R7, R50). -/
structure Frame where
  b0 : Byte
  b1 : Byte
  b2 : Byte
  b3 : Byte
  b4 : Byte
  deriving DecidableEq, Repr

end Sys2Proof
end

