-- ==== Sys2Proof/Config.lean ====
section
/-! DEFINITION. The parameters the spec leaves open (spec/00_scope.md R5, R6), the constants it fixes (R4), and
the free values: what the environment chooses under no law (R8 `draw`). -/

namespace Sys2Proof

/-! ### Constants (R4) -/

/-- `PCT_MIN` (R4). -/
def pctMin : Nat := 0

/-- `PCT_MAX` (R4). -/
def pctMax : Nat := 100

/-! ### Open parameters (R5, R6) -/

/-- The bit range `[hi:lo]` of a field inside a 32-bit register (R6, R150). -/
structure FieldRange where
  hi : Nat
  lo : Nat
  deriving DecidableEq, Repr

/-- The width of a field, `hi − lo + 1` (R150). -/
def FieldRange.width (f : FieldRange) : Nat := f.hi - f.lo + 1

/-- A field lies inside bits [31:0] (R6). -/
abbrev FieldRange.Inside (f : FieldRange) : Prop := f.lo ≤ f.hi ∧ f.hi ≤ 31

/-- Two fields share no bit (R6). -/
abbrev FieldRange.Disjoint (f g : FieldRange) : Prop := f.hi < g.lo ∨ g.hi < f.lo

/-- The open parameters: the mapper constants of R5 and the chip's register layout of R6. `PIN_NONE` is
not among them: an unconfigured pin is `none` (assumption log 10). -/
structure Params where
  csMin : Nat
  csMax : Nat
  hdMin : Nat
  hdMax : Nat
  gsMin : Nat
  gsThreshold : Nat
  gsMax : Nat
  aGlobalScaler : Byte
  aIholdIrun : Byte
  aChopconf : Byte
  aPwmconf : Byte
  fGs : FieldRange
  fIhold : FieldRange
  fIrun : FieldRange
  fIholdDelay : FieldRange
  fToff : FieldRange
  fAutoscale : FieldRange
  fAutograd : FieldRange
  toffEnable : Word
  toffDisable : Word
  deriving DecidableEq, Repr

/-- The constraints on the mapper constants (R5). -/
abbrev Params.MapperValid (c : Params) : Prop :=
  (c.csMin < c.csMax ∧ c.csMax ≤ 255) ∧ (c.hdMin < c.hdMax ∧ c.hdMax ≤ 255) ∧
  (c.gsMin < c.gsThreshold ∧ c.gsThreshold < c.gsMax ∧ c.gsMax ≤ 256)

/-- The constraints on the register layout (R6): fields inside the word, not overlapping inside one
register, wide enough for the codes written to them; the two off-time values differ (D23). -/
abbrev Params.LayoutValid (c : Params) : Prop :=
  (c.fGs.Inside ∧ c.fIhold.Inside ∧ c.fIrun.Inside ∧ c.fIholdDelay.Inside ∧ c.fToff.Inside ∧
    c.fAutoscale.Inside ∧ c.fAutograd.Inside) ∧
  (c.fIhold.Disjoint c.fIrun ∧ c.fIhold.Disjoint c.fIholdDelay ∧ c.fIrun.Disjoint c.fIholdDelay ∧
    c.fAutoscale.Disjoint c.fAutograd) ∧
  (c.fGs.width = 8 ∧ c.fAutoscale.width = 1 ∧ c.fAutograd.width = 1) ∧
  (c.csMax < 2 ^ c.fIhold.width ∧ c.csMax < 2 ^ c.fIrun.width ∧ c.hdMax < 2 ^ c.fIholdDelay.width) ∧
  (c.toffEnable.toNat < 2 ^ c.fToff.width ∧ c.toffDisable.toNat < 2 ^ c.fToff.width ∧
    c.toffEnable ≠ c.toffDisable)

/-- The four registers the Driver names are four different registers of the 128 that can be addressed
(DEDUCED from R36, R209; assumption log 13). -/
abbrev Params.AddressesDistinct (c : Params) : Prop :=
  (c.aGlobalScaler ≠ c.aIholdIrun ∧ c.aGlobalScaler ≠ c.aChopconf ∧ c.aGlobalScaler ≠ c.aPwmconf ∧
    c.aIholdIrun ≠ c.aChopconf ∧ c.aIholdIrun ≠ c.aPwmconf ∧ c.aChopconf ≠ c.aPwmconf) ∧
  (c.aGlobalScaler.toNat < 128 ∧ c.aIholdIrun.toNat < 128 ∧ c.aChopconf.toNat < 128 ∧
    c.aPwmconf.toNat < 128)

/-- All the constraints a model must assume of the open parameters (R5, R6). -/
abbrev Params.Valid (c : Params) : Prop := c.MapperValid ∧ c.LayoutValid

/-- The default column of R5 and R6 (PRESUMED: general knowledge of the family, K2, K5, K10; assumption
log 2). -/
def Params.defaults : Params where
  csMin := 0
  csMax := 31
  hdMin := 0
  hdMax := 15
  gsMin := 0
  gsThreshold := 32
  gsMax := 256
  aGlobalScaler := 0x0B
  aIholdIrun := 0x10
  aChopconf := 0x6C
  aPwmconf := 0x70
  fGs := ⟨7, 0⟩
  fIhold := ⟨4, 0⟩
  fIrun := ⟨12, 8⟩
  fIholdDelay := ⟨19, 16⟩
  fToff := ⟨3, 0⟩
  fAutoscale := ⟨18, 18⟩
  fAutograd := ⟨19, 19⟩
  toffEnable := 3
  toffDisable := 0

/-! ### Free values (R8 `draw(N)`)

Each is applied to the state's draw counter, so every exchange sees fresh ones; none has a body, so
nothing can be proved of the value (assumption log 3). -/

/-- The status byte of a reply (R97), and `last_status` before any exchange (R23). -/
opaque Config.drawStatus : Nat → Byte

/-- The payload of a reply on a malfunctioning bus (R94). -/
opaque Config.drawPayload : Nat → Word

/-- The content of a chip register at the instant the chip samples it (R97; U15). -/
opaque Config.drawContent : Nat → Word

/-- The pending reply where R97 leaves it open: at power-up and after a WRITE datagram. -/
opaque Config.drawPending : Nat → Word

/-- Whether the hardware-enable pin stands high before the Driver has driven it (R24). -/
opaque Config.drawPinHigh : Nat → Bool

end Sys2Proof
end

