-- ==== Sys2Proof/Syntax.lean ====
section
/-! DEFINITION. The rows of spec/opcode_table.json as syntax, and the encoded words they are read from
(spec/30_encoding.md R51, R52, R53, R56, R57). -/

namespace Sys2Proof

/-- One constructor per row of spec/opcode_table.json. The seven operation selects and the reserved
code take their operands from the block's input ports (R11), so they have no fields; the three wire
frames carry theirs in the frame. -/
inductive Instr where
  /-- `op = 0`: build an outbound frame from `addr`, `rw`, `wdata` (R70). -/
  | enc
  /-- `op = 1`: take an inbound frame `rx` apart (R71). -/
  | dec
  /-- `op = 2`: percent to current-setting code (R122). -/
  | p2cs
  /-- `op = 3`: current-setting code to percent (R123). -/
  | cs2p
  /-- `op = 4`: percent to hold-delay code (R124). -/
  | p2hd
  /-- `op = 5`: hold-delay code to percent (R125). -/
  | hd2p
  /-- `op = 6`: percent to global-scaler code (R126). -/
  | p2gs
  /-- `op = 7`: reserved (R57). -/
  | reserved7
  /-- A WRITE datagram: a MOSI40 frame with `W = 1`, address `a`, payload `d` (R51, R53). -/
  | write (a : BitVec 7) (d : Word)
  /-- A READ datagram: a MOSI40 frame with `W = 0`, address `a`, payload `d` (R51, R53). -/
  | read (a : BitVec 7) (d : Word)
  /-- A reply: a MISO40 frame with status byte `st` and payload `d` (R52). -/
  | reply (st : Byte) (d : Word)
  deriving DecidableEq, Repr

/-- An encoded operation as raw bytes, with the place it is presented at: the `op` port, or the
outbound or inbound side of the bus. The two sides are needed because every 40-bit pattern is both a
MOSI40 and a MISO40 frame (R58). -/
inductive Code where
  /-- The operation select, one byte whose low three bits are the `op` port (R56). -/
  | opsel (bytes : List Byte)
  /-- The bytes of an outbound frame, first byte first (R51). -/
  | mosi (bytes : List Byte)
  /-- The bytes of an inbound frame, first byte first (R52). -/
  | miso (bytes : List Byte)
  deriving DecidableEq, Repr

end Sys2Proof
end

