-- ==== Sys2Proof/WellFormed.lean ====
section
/-! DEFINITION. Which instructions are well formed. -/

namespace Sys2Proof

/-- Well-formedness. The field widths of `Instr` are those of the frames (R51, R52), so every WRITE,
READ and REPLY is well formed (R58: no reserved, illegal or hint encoding at the codec). The one
check left is R57: `op = 7` selects no operation. -/
def Instr.wellFormed (i : Instr) : Bool :=
  match i with
  | .enc => true
  | .dec => true
  | .p2cs => true
  | .cs2p => true
  | .p2hd => true
  | .hd2p => true
  | .p2gs => true
  | .reserved7 => false
  | .write _ _ => true
  | .read _ _ => true
  | .reply _ _ => true

end Sys2Proof
end

