-- ==== Sys2Proof/Decode.lean ====
section
/-! DEFINITION. Frame layouts, the decoder (total on any bytes, rejecting by name) and the encoder
(spec/30_encoding.md). -/

namespace Sys2Proof

/-! ### Frame layouts -/

/-- Format MOSI40 (R51): `tx[0] = {A, W}`, then the payload, most significant byte first. -/
def mosiFrame (a : BitVec 7) (w : BitVec 1) (d : Word) : Frame where
  b0 := a ++ w
  b1 := d.extractLsb' 24 8
  b2 := d.extractLsb' 16 8
  b3 := d.extractLsb' 8 8
  b4 := d.extractLsb' 0 8

/-- Format MISO40 (R52): `rx[0]` the status byte, then the payload, most significant byte first. -/
def misoFrame (st : Byte) (d : Word) : Frame where
  b0 := st
  b1 := d.extractLsb' 24 8
  b2 := d.extractLsb' 16 8
  b3 := d.extractLsb' 8 8
  b4 := d.extractLsb' 0 8

/-- The `A` field of an outbound frame, `tx[0][7:1]` (R51, R54). -/
def frameAddr (f : Frame) : BitVec 7 := f.b0.extractLsb' 1 7

/-- The `W` field of an outbound frame, `tx[0][0]` (R51). -/
def frameFlag (f : Frame) : BitVec 1 := f.b0.extractLsb' 0 1

/-- The payload of a frame of either direction, `{b1, b2, b3, b4}` (R55). -/
def framePayload (f : Frame) : Word := f.b1 ++ f.b2 ++ f.b3 ++ f.b4

/-- The five bytes of a frame in the order they cross the bus (R7, R72). -/
def frameBytes (f : Frame) : List Byte := [f.b0, f.b1, f.b2, f.b3, f.b4]

/-- A byte sequence of any length but five is not a frame (R50). -/
def frameOfBytes (bs : List Byte) : Option Frame :=
  match bs with
  | [b0, b1, b2, b3, b4] => some ⟨b0, b1, b2, b3, b4⟩
  | _ => none

/-- The 40-bit value of a frame taken apart: `b[k] = frame[39 − 8k : 32 − 8k]` (R7). -/
def frameOfValue (v : BitVec 40) : Frame where
  b0 := v.extractLsb' 32 8
  b1 := v.extractLsb' 24 8
  b2 := v.extractLsb' 16 8
  b3 := v.extractLsb' 8 8
  b4 := v.extractLsb' 0 8

/-! ### Decoding -/

/-- Why bytes are no instruction. -/
inductive DecodeError where
  /-- Not one byte with bits 7 to 3 zero, so not a value of the 3-bit `op` port (R56). -/
  | notAnOpSelect
  /-- Not exactly five bytes (R50). -/
  | notAFrame
  deriving DecidableEq, Repr

/-- The operation a value of the `op` port selects; code 7 is the reserved row, named (R56, R57). -/
def decodeOp (op : BitVec 3) : Instr :=
  match op.toNat with
  | 0 => .enc
  | 1 => .dec
  | 2 => .p2cs
  | 3 => .cs2p
  | 4 => .p2hd
  | 5 => .hd2p
  | 6 => .p2gs
  | _ => .reserved7

/-- An outbound frame is a WRITE datagram when `W = 1` and a READ datagram when `W = 0` (R53). -/
def decodeMosi (f : Frame) : Instr :=
  if frameFlag f = 1 then .write (frameAddr f) (framePayload f)
  else .read (frameAddr f) (framePayload f)

/-- Every inbound frame is a reply; no bit of it selects anything (R52). -/
def decodeMiso (f : Frame) : Instr := .reply f.b0 (framePayload f)

/-- An operation-select byte: its low three bits are the `op` port and the others must be zero. -/
def decodeOpsel (bs : List Byte) : Except DecodeError Instr :=
  match bs with
  | [b] => if b.toNat < 8 then .ok (decodeOp (b.setWidth 3)) else .error .notAnOpSelect
  | _ => .error .notAnOpSelect

/-- The decoder, total on any bytes. -/
def decode (c : Code) : Except DecodeError Instr :=
  match c with
  | .opsel bs => decodeOpsel bs
  | .mosi bs =>
    match frameOfBytes bs with
    | some f => .ok (decodeMosi f)
    | none => .error .notAFrame
  | .miso bs =>
    match frameOfBytes bs with
    | some f => .ok (decodeMiso f)
    | none => .error .notAFrame

/-! ### Encoding -/

/-- The encoded words of an instruction, from the tables of R51, R52 and R56. -/
def encode (i : Instr) : Code :=
  match i with
  | .enc => .opsel [0]
  | .dec => .opsel [1]
  | .p2cs => .opsel [2]
  | .cs2p => .opsel [3]
  | .p2hd => .opsel [4]
  | .hd2p => .opsel [5]
  | .p2gs => .opsel [6]
  | .reserved7 => .opsel [7]
  | .write a d => .mosi (frameBytes (mosiFrame a 1 d))
  | .read a d => .mosi (frameBytes (mosiFrame a 0 d))
  | .reply st d => .miso (frameBytes (misoFrame st d))

/-! ### The table's words -/

/-- The bytes of a word numbered as spec/opcode_table.json numbers it. A row of at most one byte is an
operation select; a longer row is a 40-bit frame whose bit 39 is the first on the bus (R7). The table
gives the outbound and the inbound frames the same 40 bits, so a bare 40-bit word is read as an
outbound frame (assumption log 15). -/
def tableCode (nbits w : Nat) : Code :=
  if nbits ≤ 8 then .opsel [BitVec.ofNat 8 w]
  else .mosi (frameBytes (frameOfValue (BitVec.ofNat 40 w)))

/-- The instruction the decoder reads from a word of the table. -/
def decodeTableWord (nbits w : Nat) : Option Instr :=
  match decode (tableCode nbits w) with
  | .ok i => some i
  | .error _ => none

end Sys2Proof
end

