-- ==== Sys2Proof/Machine/State.lean ====
section
/-! DEFINITION. The state of the machine as plain data: the block's ports (spec/10_state.md R11, R12), the context
state S1 to S4 (R16 to R19), the caller's remaining calls (R14, R37), what has crossed the bus, and the launch
arguments (R5, R6, R24, R25, R99, R201). -/

namespace Sys2Proof.Machine

/-! ### The block's ports -/

/-- The operand input ports (R11). The operation select `op` stands in `State`, since only selecting an
operation sets it. -/
structure Inputs where
  addr : Byte
  rw : BitVec 1
  wdata : Word
  rx : Frame
  pct : Byte
  code : Byte
  deriving DecidableEq, Repr

/-- The output ports as the selected operation drives them (R12). An output an operation does not drive
is unspecified while that operation is selected, so each operation gives only its own outputs. -/
inductive Outputs where
  /-- No operation is selected, so no output is driven (R57). -/
  | undriven
  /-- ENC drives `tx[0..4]`. -/
  | tx (f : Frame)
  /-- DEC drives `status` and `rdata`. -/
  | reply (status : Byte) (rdata : Word)
  /-- A mapper operation drives `result`. -/
  | result (r : Byte)
  deriving DecidableEq, Repr

/-! ### Register maps -/

/-- A map from register number to 32-bit content: the peer's register space (R30, whose unit of
addressing is one whole register) and the Register Bank's cache (R17). An unlisted register holds no
known value; the canonical form is `Memory.wf` in Machine/Ops.lean. -/
abbrev Memory := List (Nat × Word)

/-! ### The bus and the peer -/

/-- The level of the hardware-enable pin (R96 `pin_write`; active low, R151). -/
inductive Level where
  | low
  | high
  deriving DecidableEq, Repr

/-- The transport variant, selected at construction time (R99). -/
inductive Variant where
  | spi
  | uart
  deriving DecidableEq, Repr

/-- The condition of the byte transport, a launch premise (R94, R201). -/
inductive BusCondition where
  /-- Not yet configured: R90 describes nothing (R201). -/
  | notConfigured
  /-- Synchronous, reliable and configured. -/
  | reliable
  /-- Malfunctioning: replies are garbage (R94). -/
  | garbage
  /-- A bus operation never completes (R94, U9). -/
  | hangs
  deriving DecidableEq, Repr

/-- One thing the host does at the transport boundary, in the order it does it (R90, R91, R96). -/
inductive BusEvent where
  | beginTransaction
  | csAssert
  /-- `xfer`: one byte out and, in the same exchange, one byte in. -/
  | xfer (sent received : Byte)
  | csDeassert
  | endTransaction
  | maskInterrupts
  /-- The assignment `last_status <- status` of CAPTURE. -/
  | capture (status : Byte)
  | restoreInterrupts
  /-- `pin_write(pin, level)`. -/
  | pinWrite (pin : Nat) (level : Level)
  deriving DecidableEq, Repr

/-- What answers on the bus: the chip, of which only R97 is fixed, or the reference peer of R98, a test
fixture. -/
inductive PeerKind where
  | chip
  | reference
  deriving DecidableEq, Repr

/-- Context state S4 (R19, R97, R98). -/
structure Peer where
  /-- Which peer answers. -/
  kind : PeerKind
  /-- The registers, as far as their content is known. A request leaves nothing known of the chip's
  (R35, R97; assumption log 8). -/
  regs : Memory
  /-- The pending reply (R19, R97). -/
  pend : Word
  /-- The register the last WRITE datagram named and the value it received; none after anything else. The
  model's own record: whether and when the chip's register holds that value is open (R37, R92, R97;
  assumption log 27). -/
  received : Option (Nat × Word)
  /-- The register the last READ datagram named and the content sampled of it; none after anything else.
  The model's own record of what the pending reply answers (R97; assumption log 8). -/
  sampled : Option (Nat × Word)
  /-- The reference peer's constant status byte (R98). -/
  st : Byte
  deriving DecidableEq, Repr

/-! ### The Driver -/

/-- Context state S3 (R18): the enable record, the optional pin (`none` is `PIN_NONE`), the level last
driven on it, and whether a Register Bank is bound. -/
structure Driver where
  hwEnabled : Bool
  swEnabled : Bool
  hwPin : Option Nat
  pinLevel : Level
  bound : Bool
  deriving DecidableEq, Repr

/-! ### What the caller does -/

/-- The context procedures (R61). The two marked as continuations are the tails of READ_REG and BANK_READ
after their exchanges. -/
inductive Proc where
  /-- XCHG (R90). -/
  | xchg (tx : Frame)
  /-- WRITE_REG, `writeRegister` (R92). -/
  | writeReg (a : Byte) (v : Word)
  /-- READ_REG, `readRegister` (R93). -/
  | readReg (a : Byte)
  /-- Continuation of READ_REG: return the payload of the reply just decoded (R93). -/
  | returnPayload
  /-- BANK_WRITE, `write` (R110). -/
  | bankWrite (a : Byte) (v : Word)
  /-- GET_STORED, `getStored` (R111). -/
  | getStored (a : Byte)
  /-- BANK_READ, `read` (R112). -/
  | bankRead (a : Byte)
  /-- Continuation of BANK_READ: store the value just read (R112). -/
  | bankStore (a : Byte)
  /-- RMW of a list of fields of one register (R150). -/
  | rmw (a : Byte) (fields : List (FieldRange × Word))
  | hardwareEnable
  | hardwareDisable
  | softwareEnable
  | softwareDisable
  | enable
  | disable
  | setup
  | minimizeMotorCurrent
  | setRunCurrent (p : Byte)
  | setHoldCurrent (p : Byte)
  | setHoldDelay (p : Byte)
  | setAllCurrentValues (run hold delay : Byte)
  /-- Set the global scaler from a percent (R163). -/
  | setGlobalScaler (p : Byte)
  | enableAutomaticCurrentControl
  | disableAutomaticCurrentControl
  /-- The interrupt-context reader of `last_status` (R16, R91, R181). -/
  | statusRead
  deriving DecidableEq, Repr

/-- One item of the caller's program order (R14, R37). -/
inductive Call where
  /-- Put values on the operand input ports; `op` is unchanged. -/
  | drive (inp : Inputs)
  /-- An encoded operation: an operation select, or a frame of either direction. -/
  | word (c : Code)
  /-- A context procedure. -/
  | proc (p : Proc)
  deriving DecidableEq, Repr

/-! ### How a step can stop -/

/-- Why the machine is stuck. -/
inductive Fault where
  /-- Raised by an exchange when the bus operation never completes: the caller hangs and has no further
  step (R94, U9 `stuck`). Safe: nothing is claimed after it. -/
  | busNeverCompletes
  deriving DecidableEq, Repr

/-- What the model gives no meaning to. -/
inductive Refusal where
  /-- Raised by `exec` for an instruction not modelled yet; no arm of this model raises it. Safe. -/
  | notModelled (mnemonic : String)
  /-- Raised by RESERVED7: `op = 7` selects no operation and a model refuses it (R57). Safe. -/
  | reservedOperation
  /-- Raised by `step`: the word presented at the `op` port is no 3-bit value (R56). Safe. -/
  | notAnOpSelect
  /-- Raised by `step`: a byte sequence of any length but five is not a frame (R50). Safe. -/
  | notAFrame
  /-- Raised by GET_STORED and RMW: the cache entry was never set (R25, R115). Safe. -/
  | cacheEntryUnset
  /-- Raised by every wire and register access of the UART variant, which is a stub with no framing
  (R59, R99, D14). Safe. -/
  | uartNotImplemented
  /-- Raised by an exchange before the transport is configured (R201). Safe. -/
  | transportNotConfigured
  /-- Raised by a Driver procedure that works through the bank before `setup` has bound one (R202).
  Safe. -/
  | bankNotBound
  deriving DecidableEq, Repr

/-! ### The state -/

/-- The whole machine. -/
structure State where
  /-- The open parameters, a launch argument no step changes (R5, R6, R21). -/
  cfg : Params
  /-- The operation select port (R11). -/
  op : BitVec 3
  /-- The operand input ports (R11). -/
  inp : Inputs
  /-- The output ports (R12). -/
  out : Outputs
  /-- The transport variant, a construction argument (R99). -/
  variant : Variant
  /-- The condition of the byte transport, a launch premise (R94, R201). -/
  bus : BusCondition
  /-- S1 `last_status` (R16). -/
  lastStatus : Byte
  /-- S2 the Register Bank's `cache`, keyed by the 8-bit identifier (R17). -/
  cache : Memory
  /-- S3 the Driver (R18). -/
  driver : Driver
  /-- S4 the peer (R19). -/
  peer : Peer
  /-- The caller's remaining calls, next first (R14, R37). -/
  calls : List Call
  /-- The model's own record of what the host did at the transport boundary, oldest first. -/
  trace : List BusEvent
  /-- The model's own record of the value the last returning procedure gave its caller. -/
  ret : Option Word
  /-- The model's own record of what the interrupt-context reader last saw in `last_status`. -/
  irqSeen : Option Byte
  /-- The model's own counter: which free value the next exchange uses. -/
  draws : Nat
  deriving DecidableEq, Repr

/-- The operand ports before a caller has driven them (assumption log 4). -/
def Inputs.reset : Inputs where
  addr := 0
  rw := 0
  wdata := 0
  rx := ⟨0, 0, 0, 0, 0⟩
  pct := 0
  code := 0

/-- The peer at reset: the chip, unspecified in every part (R26). -/
def Peer.reset : Peer where
  kind := .chip
  regs := []
  pend := Config.drawPending 0
  received := none
  sampled := none
  st := Config.drawStatus 1

/-- The Driver as constructed: disabled (R24), without a pin, not bound (assumption log 10, 11). -/
def Driver.reset : Driver where
  hwEnabled := false
  swEnabled := false
  hwPin := none
  pinLevel := if Config.drawPinHigh 0 then .high else .low
  bound := false

/-- The machine right after reset (R22 to R26, R200): the block has nothing to reset, so its outputs are
the function of its inputs (here ENC of zeros); `last_status` and the peer are unspecified, so free
values; no cache entry has a value; the enable record is {false, false}; no call is waiting. -/
def State.reset : State where
  cfg := Params.defaults
  op := 0
  inp := Inputs.reset
  out := .tx ⟨0, 0, 0, 0, 0⟩
  variant := .spi
  bus := .reliable
  lastStatus := Config.drawStatus 0
  cache := []
  driver := Driver.reset
  peer := Peer.reset
  calls := []
  trace := []
  ret := none
  irqSeen := none
  draws := 2

/-- The machine at reset with its launch and construction arguments given: the parameters, the variant,
the pin, the bound bank, the initial cache `cache0`, the peer, and the caller's program (R5, R24, R25,
R26, R99, R203). -/
def State.launch (cfg : Params) (variant : Variant) (hwPin : Option Nat) (bound : Bool)
    (cache0 : Memory) (peer : Peer) (calls : List Call) : State :=
  { State.reset with
    cfg := cfg
    variant := variant
    driver := { Driver.reset with hwPin := hwPin, bound := bound }
    cache := cache0
    peer := peer
    calls := calls }

end Sys2Proof.Machine
end

