-- ==== Sys2Proof/Machine/Operands.lean ====
section
/-! DEFINITION. Operand assembly: the percent and code clamps and the linear map of the mapper
(spec/43_percent_mapper.md R120, R121, R123, R125), the field masks of a 32-bit register
(spec/44_driver.md R150), and the register number a caller's identifier stands for on the wire
(spec/30_encoding.md R54). Frame fields are assembled in Sys2Proof/Decode.lean. -/

namespace Sys2Proof.Machine

/-- `A = addr[6:0]`; bit 7 of the identifier has no place in the frame (R54, R75). -/
def addrField (addr : Byte) : BitVec 7 := addr.setWidth 7

/-- CLAMP: `min(max(p, PCT_MIN), PCT_MAX)` on an unsigned 8-bit percent (R120). -/
def clampPct (p : Byte) : Byte := BitVec.ofNat 8 (min (max p.toNat pctMin) pctMax)

/-- The clamp of a code into the range of its field (R123, R125). -/
def clampCode (code : Byte) (lo hi : Nat) : Nat := min (max code.toNat lo) hi

/-- LMAP, the bounded linear map: multiply, then divide toward zero, then add the offset, exactly
(R121, R134, R135). -/
def lmap (x inLo inHi outLo outHi : Nat) : Nat :=
  outLo + ((x - inLo) * (outHi - outLo)) / (inHi - inLo)

/-- `mask(F) = ((1 << w) − 1) << lo` in 32 bits (R150). -/
def fieldMask (f : FieldRange) : Word := BitVec.ofNat 32 ((2 ^ f.width - 1) * 2 ^ f.lo)

/-- `INSERT(r, F, c) = (r & ~mask(F)) | ((zext_32(c) << lo) & mask(F))` (R150). -/
def insertField (r : Word) (f : FieldRange) (c : Word) : Word :=
  (r &&& ~~~(fieldMask f)) ||| ((c <<< f.lo) &&& fieldMask f)

/-- `EXTRACT(r, F) = (r & mask(F)) >> lo` (R150). -/
def extractField (r : Word) (f : FieldRange) : Word := (r &&& fieldMask f) >>> f.lo

/-- The successive INSERTs of an RMW, first pair first (R150). -/
def insertFields (r : Word) (fields : List (FieldRange × Word)) : Word :=
  fields.foldl (fun acc fc => insertField acc fc.1 fc.2) r

end Sys2Proof.Machine
end

