-- ==== Sys2Proof/Machine/Block.lean ====
section
/-! DEFINITION. The block itself, as the pure functions of its inputs it is (spec/10_state.md R10): the Datagram
Codec (spec/40_codec.md R70, R71) and the percent mapper (spec/43_percent_mapper.md R122 to R126). -/

namespace Sys2Proof.Machine

/-- ENC: `tx[0] = {addr[6:0], rw}`, then `wdata`, most significant byte first (R70, R75). -/
def encFrame (addr : Byte) (rw : BitVec 1) (wdata : Word) : Frame :=
  mosiFrame (addrField addr) rw wdata

/-- DEC's `status`: byte 0 of the inbound frame, uninterpreted (R71). -/
def decStatus (rx : Frame) : Byte := rx.b0

/-- DEC's `rdata`: bytes 1 to 4, most significant first (R71). -/
def decPayload (rx : Frame) : Word := framePayload rx

/-- P2CS: `LMAP(CLAMP(pct), 0, 100, CS_MIN, CS_MAX)` (R122). -/
def p2cs (c : Params) (pct : Byte) : Byte :=
  BitVec.ofNat 8 (lmap (clampPct pct).toNat pctMin pctMax c.csMin c.csMax)

/-- CS2P: the code clamped into its range, then mapped onto [0, 100] (R123). -/
def cs2p (c : Params) (code : Byte) : Byte :=
  BitVec.ofNat 8 (lmap (clampCode code c.csMin c.csMax) c.csMin c.csMax pctMin pctMax)

/-- P2HD: `LMAP(CLAMP(pct), 0, 100, HD_MIN, HD_MAX)` (R124). -/
def p2hd (c : Params) (pct : Byte) : Byte :=
  BitVec.ofNat 8 (lmap (clampPct pct).toNat pctMin pctMax c.hdMin c.hdMax)

/-- HD2P: the code clamped into its range, then mapped onto [0, 100] (R125). -/
def hd2p (c : Params) (code : Byte) : Byte :=
  BitVec.ofNat 8 (lmap (clampCode code c.hdMin c.hdMax) c.hdMin c.hdMax pctMin pctMax)

/-- The uncorrected linear value of the global scaler, which may need nine bits (R126). -/
def gsLinear (c : Params) (pct : Byte) : Nat :=
  lmap (clampPct pct).toNat pctMin pctMax c.gsMin c.gsMax

/-- P2GS: the dead-zone clamp is tested first, then the wrap of the top of the range to 0 (R126, D12). -/
def p2gs (c : Params) (pct : Byte) : Byte :=
  if gsLinear c pct < c.gsThreshold then BitVec.ofNat 8 c.gsThreshold
  else if c.gsMax ≤ gsLinear c pct then 0
  else BitVec.ofNat 8 (gsLinear c pct)

/-- The outputs the operation `op` drives for the given inputs (R10, R12, R56, R57). -/
def blockOutputs (c : Params) (op : BitVec 3) (inp : Inputs) : Outputs :=
  match op.toNat with
  | 0 => .tx (encFrame inp.addr inp.rw inp.wdata)
  | 1 => .reply (decStatus inp.rx) (decPayload inp.rx)
  | 2 => .result (p2cs c inp.pct)
  | 3 => .result (cs2p c inp.code)
  | 4 => .result (p2hd c inp.pct)
  | 5 => .result (hd2p c inp.code)
  | 6 => .result (p2gs c inp.pct)
  | _ => .undriven

end Sys2Proof.Machine
end

