-- ==== Sys2Proof/Machine/Flags.lean ====
section
/-! DEFINITION. The block has no flags, condition codes or predicates (spec/10_state.md R15). The only flag-like
quantity is the status byte of a reply, which DEC passes through uninterpreted and the Transport
captures (spec/41_transport.md R91). -/

namespace Sys2Proof.Machine

/-- CAPTURE: mask interrupts, assign `last_status`, restore interrupts (R91, R38). -/
def captureStatus (status : Byte) (s : State) : State :=
  { s with
    lastStatus := status
    trace := s.trace ++ [.maskInterrupts, .capture status, .restoreInterrupts] }

end Sys2Proof.Machine
end

