-- ==== Sys2Proof/Machine/Ops.lean ====
section
/-! DEFINITION. The named operations over the state: register maps, the ports, the peer, one exchange, and the
interrupt that reads the status. There is no operation that takes an exception and none that returns
from one: the block raises none, and there is no trap entry and no trap return (spec/60_exceptions.md
R180, R183, R184). -/

namespace Sys2Proof.Machine

/-! ### Register maps -/

/-- What an unlisted register holds: no value the model knows (R25, R26). -/
def Memory.unlisted : Option Word := none

/-- The content of a register. -/
def Memory.read (m : Memory) (a : Nat) : Option Word :=
  match m with
  | [] => Memory.unlisted
  | (b, w) :: rest => if b = a then some w else Memory.read rest a

/-- Set one register, keeping the list sorted by register number. -/
def Memory.write (m : Memory) (a : Nat) (v : Word) : Memory :=
  match m with
  | [] => [(a, v)]
  | (b, w) :: rest =>
    if a < b then (a, v) :: (b, w) :: rest
    else if a = b then (a, v) :: rest
    else (b, w) :: Memory.write rest a v

/-- Register numbers strictly rise from `lo` on and stay below `size`. -/
def Memory.wfFrom (lo size : Nat) (m : Memory) : Bool :=
  match m with
  | [] => true
  | (b, _) :: rest => decide (lo ≤ b) && (decide (b < size) && Memory.wfFrom (b + 1) size rest)

/-- The canonical form of a register map of `size` registers. An unlisted register has no value, so no
listed entry can equal what an unlisted one reads as. -/
def Memory.wf (size : Nat) (m : Memory) : Bool := Memory.wfFrom 0 size m

/-! ### Ports and calls -/

/-- Select an operation, which then drives its outputs (R11, R12). -/
def selectOp (op : BitVec 3) (out : Outputs) (s : State) : State := { s with op := op, out := out }

/-- The caller drives the operand ports; the outputs follow, for the block is combinational (R10). -/
def drivePorts (inp : Inputs) (s : State) : State :=
  { s with inp := inp, out := blockOutputs s.cfg s.op inp }

/-- The caller's remaining calls. -/
def setCalls (cs : List Call) (s : State) : State := { s with calls := cs }

/-- Set one entry of the Register Bank's cache (R17). -/
def storeEntry (a : Byte) (v : Word) (s : State) : State :=
  { s with cache := s.cache.write a.toNat v }

/-- A procedure returns a value to its caller. -/
def returnValue (v : Word) (s : State) : State := { s with ret := some v }

/-- Put calls in front of the caller's remaining ones. -/
def pushCalls (cs : List Call) (s : State) : State := { s with calls := cs ++ s.calls }

/-- The Transport evaluates ENC on the ports (R92, R93). -/
def transportEnc (a : Byte) (w : BitVec 1) (d : Word) (s : State) : State :=
  { s with
    op := 0
    inp := { s.inp with addr := a, rw := w, wdata := d }
    out := .tx (encFrame a w d) }

/-- One exchange of an outbound frame, as a call. -/
def exchangeCall (f : Frame) : Call := .word (.mosi (frameBytes f))

/-! ### The peer -/

/-- The content of register `a` as the peer samples it for a READ datagram. The chip samples whatever the
register holds at an instant the spec leaves open, and may have changed it itself (R35, R40, R97); the
reference peer is plain storage, whose registers hold arbitrary values at first (R26, R98). -/
def sampleReg (n : Nat) (p : Peer) (a : BitVec 7) : Word :=
  match p.kind with
  | .chip => Config.drawContent n
  | .reference => (p.regs.read a.toNat).getD (Config.drawContent n)

/-- The status byte of a reply: open at the chip, constant at the reference peer (R97, R98). -/
def peerStatus (n : Nat) (p : Peer) : Byte :=
  match p.kind with
  | .chip => Config.drawStatus n
  | .reference => p.st

/-- The reply of an exchange, formed from the peer's state before the request (R72, R98). -/
def peerReply (n : Nat) (p : Peer) : Frame := misoFrame (peerStatus n p) p.pend

/-- What is known of the registers after a WRITE datagram that sent `d` to register `a`. At the chip
nothing: whether register `a` then holds `d`, and whether the write is applied before the exchange ends,
is open (R35, R37, R97; assumption log 8, 27). The reference peer is plain storage and applies the write
after the reply is formed (R98). -/
def regsAfterWrite (p : Peer) (a : BitVec 7) (d : Word) : Memory :=
  match p.kind with
  | .chip => []
  | .reference => p.regs.write a.toNat d

/-- What is known of the registers after a READ datagram that sampled `v` of register `a`. At the chip
nothing: a read may have side effects, on register `a` too (R35; assumption log 8). At the reference
peer a read has none, and a register with an arbitrary content keeps the one sampled (R26, R98). -/
def regsAfterRead (p : Peer) (a : BitVec 7) (v : Word) : Memory :=
  match p.kind with
  | .chip => []
  | .reference => p.regs.write a.toNat v

/-- What a request does to the peer. A WRITE datagram sends its payload to register `a`, which receives it,
and leaves the next reply's payload open; a READ datagram makes the content of register `a` the pending reply
(R53, R92, R97, R98). -/
def peerAfter (n : Nat) (p : Peer) (a : BitVec 7) (w : BitVec 1) (d : Word) : Peer :=
  if w = 1 then
    { p with
      regs := regsAfterWrite p a d
      pend := Config.drawPending n
      received := some (a.toNat, d)
      sampled := none }
  else
    { p with
      regs := regsAfterRead p a (sampleReg n p a)
      pend := sampleReg n p a
      received := none
      sampled := some (a.toNat, sampleReg n p a) }

/-- The reply of a malfunctioning bus: any 40 bits (R94, U2). -/
def garbageReply (n : Nat) : Frame := misoFrame (Config.drawStatus n) (Config.drawPayload n)

/-- After an exchange over a malfunctioning bus nothing is known of the peer (R40, R94). -/
def peerAfterGarbage (n : Nat) (p : Peer) : Peer :=
  { p with regs := [], pend := Config.drawPending n, received := none, sampled := none }

/-! ### One exchange -/

/-- Steps 1 to 3 of an exchange on the bus: the bracket and five byte exchanges in index order, each
sending request byte `k` and receiving reply byte `k` (R72, R90). -/
def shuttle (tx rx : Frame) : List BusEvent :=
  [.beginTransaction, .csAssert,
   .xfer tx.b0 rx.b0, .xfer tx.b1 rx.b1, .xfer tx.b2 rx.b2, .xfer tx.b3 rx.b3, .xfer tx.b4 rx.b4,
   .csDeassert, .endTransaction]

/-- An inbound frame stands on `rx`, DEC takes it apart, and its status is captured (R71, R90, R91). -/
def receiveReply (rx : Frame) (s : State) : State :=
  captureStatus (decStatus rx)
    { s with
      op := 1
      inp := { s.inp with rx := rx }
      out := .reply (decStatus rx) (decPayload rx) }

/-- A completed exchange: request `tx` out, reply `rx` in, the peer left as `p` (R90). -/
def completeExchange (tx rx : Frame) (p : Peer) (s : State) : State :=
  receiveReply rx
    { s with trace := s.trace ++ shuttle tx rx, peer := p, draws := s.draws + 1 }

/-- XCHG of the frame `{a, w, d}` (R90, R94, R99, R201). -/
def exchange (a : BitVec 7) (w : BitVec 1) (d : Word) (s : State) :
    Host.Outcome State Fault Refusal :=
  match s.variant with
  | .uart => .refused .uartNotImplemented
  | .spi =>
    match s.bus with
    | .notConfigured => .refused .transportNotConfigured
    | .hangs => .fault .busNeverCompletes
    | .garbage =>
      .next (completeExchange (mosiFrame a w d) (garbageReply s.draws)
        (peerAfterGarbage s.draws s.peer) s)
    | .reliable =>
      .next (completeExchange (mosiFrame a w d) (peerReply s.draws s.peer)
        (peerAfter s.draws s.peer a w d) s)

/-! ### The outside world -/

/-- An interrupt arrives between two steps and its handler reads `last_status` next (R16, R91, R206). -/
def interruptArrives (s : State) : State := pushCalls [.proc .statusRead] s

end Sys2Proof.Machine
end

