-- ==== Sys2Proof/Machine/Transport.lean ====
section
/-! DEFINITION. The Transport's procedures around the codec (spec/41_transport.md R90 to R93, R99). A procedure's
exchanges are put in front of the caller's remaining calls, so each is one step of the machine and an
interrupt can arrive between the two exchanges of a read (R206). -/

namespace Sys2Proof.Machine

/-- XCHG: the exchange is the caller's next call (R90). Frames are the SPI variant's only (R59, R99). -/
def xchg (tx : Frame) (s : State) : Host.Outcome State Fault Refusal :=
  match s.variant with
  | .uart => .refused .uartNotImplemented
  | .spi => .next (pushCalls [exchangeCall tx] s)

/-- WRITE_REG: one ENC with flag 1 and one exchange (R92). -/
def writeReg (a : Byte) (v : Word) (s : State) : Host.Outcome State Fault Refusal :=
  match s.variant with
  | .uart => .refused .uartNotImplemented
  | .spi => .next (pushCalls [exchangeCall (encFrame a 1 v)] (transportEnc a 1 v s))

/-- READ_REG: one ENC with flag 0 and payload 0, the identical exchange twice, and the second reply's
payload returned (R93, D6). -/
def readReg (a : Byte) (s : State) : Host.Outcome State Fault Refusal :=
  match s.variant with
  | .uart => .refused .uartNotImplemented
  | .spi =>
    .next (pushCalls
      [exchangeCall (encFrame a 0 0), exchangeCall (encFrame a 0 0), .proc .returnPayload]
      (transportEnc a 0 0 s))

/-- The tail of READ_REG: return the payload of the reply that stands on `rx` (R93). -/
def returnPayload (s : State) : Host.Outcome State Fault Refusal :=
  .next (returnValue (decPayload s.inp.rx) s)

/-- The interrupt-context reader sees the last captured status (R16, R91). -/
def statusRead (s : State) : Host.Outcome State Fault Refusal :=
  .next { s with irqSeen := some s.lastStatus }

end Sys2Proof.Machine
end

