-- ==== Sys2Proof/Machine/Bank.lean ====
section
/-! DEFINITION. The Register Bank's procedures (spec/42_register_bank.md R110 to R115) and the read-modify-write of
fields through it (spec/44_driver.md R150). -/

namespace Sys2Proof.Machine

/-- BANK_WRITE: store in the cache and forward the write (R110). -/
def bankWrite (a : Byte) (v : Word) (s : State) : Host.Outcome State Fault Refusal :=
  writeReg a v (storeEntry a v s)

/-- GET_STORED: the last cached value, without touching the bus; a never-set entry is refused
(R111, R115). -/
def getStored (a : Byte) (s : State) : Host.Outcome State Fault Refusal :=
  match s.cache.read a.toNat with
  | some v => .next (returnValue v s)
  | none => .refused .cacheEntryUnset

/-- BANK_READ: READ_REG, then store the value read (R112). -/
def bankRead (a : Byte) (s : State) : Host.Outcome State Fault Refusal :=
  readReg a (pushCalls [.proc (.bankStore a)] s)

/-- The tail of BANK_READ: store and return the payload just read (R112). -/
def bankStore (a : Byte) (s : State) : Host.Outcome State Fault Refusal :=
  .next (returnValue (decPayload s.inp.rx) (storeEntry a (decPayload s.inp.rx) s))

/-- RMW: read the stored value, insert each field, write back once (R150). -/
def rmw (a : Byte) (fields : List (FieldRange × Word)) (s : State) :
    Host.Outcome State Fault Refusal :=
  match s.cache.read a.toNat with
  | some r => bankWrite a (insertFields r fields) s
  | none => .refused .cacheEntryUnset

end Sys2Proof.Machine
end

