-- ==== Sys2Proof/Machine/Driver.lean ====
section
/-! DEFINITION. The Driver's procedures: enabling, bring-up and the setters (spec/44_driver.md R151 to R166). -/

namespace Sys2Proof.Machine

/-- A code of the mapper as the 32-bit operand of INSERT, `zext_32(c)` (R150). -/
def codeWord (c : Byte) : Word := c.setWidth 32

/-- Every Driver procedure that uses the bank works through the one `setup` bound (R202). -/
def throughBank (k : State → Host.Outcome State Fault Refusal) (s : State) :
    Host.Outcome State Fault Refusal :=
  if s.driver.bound then k s else .refused .bankNotBound

/-- `pin_write(pin, level)` (R96). -/
def pinWrite (pin : Nat) (level : Level) (s : State) : State :=
  { s with
    driver := { s.driver with pinLevel := level }
    trace := s.trace ++ [.pinWrite pin level] }

/-- The Driver's record of the hardware component (R18, R151, R152). -/
def recordHardware (b : Bool) (s : State) : State :=
  { s with driver := { s.driver with hwEnabled := b } }

/-- The Driver's record of the software component (R18, R153, R154). -/
def recordSoftware (b : Bool) (s : State) : State :=
  { s with driver := { s.driver with swEnabled := b } }

/-- The Driver records the bank to use (R157, step 1). -/
def bindBank (s : State) : State := { s with driver := { s.driver with bound := true } }

/-- The state after `hardwareEnable`: a configured pin is driven low, and the record says enabled
(R151). -/
def hardwareEnabled (s : State) : State :=
  match s.driver.hwPin with
  | some pin => pinWrite pin .low (recordHardware true s)
  | none => recordHardware true s

/-- The state after `hardwareDisable`: a configured pin is driven high and the record says disabled;
without a pin nothing happens (R152). So without a pin the record stays as it was, also after `setup`:
the model's choice reads R157's "hardware always-on" as the hardware stage, `hardwareStage`, and not as
the record (assumption log 26). -/
def hardwareDisabled (s : State) : State :=
  match s.driver.hwPin with
  | some pin => pinWrite pin .high (recordHardware false s)
  | none => s

/-- `hardwareEnable` (R151). -/
def hardwareEnable (s : State) : Host.Outcome State Fault Refusal := .next (hardwareEnabled s)

/-- `hardwareDisable` (R152). -/
def hardwareDisable (s : State) : Host.Outcome State Fault Refusal := .next (hardwareDisabled s)

/-- `softwareEnable`: RMW of the off-time field to its enabled default (R153). -/
def softwareEnable (s : State) : Host.Outcome State Fault Refusal :=
  throughBank
    (fun t => rmw t.cfg.aChopconf [(t.cfg.fToff, t.cfg.toffEnable)] (recordSoftware true t)) s

/-- `softwareDisable`: RMW of the off-time field to the disabling sentinel (R154). -/
def softwareDisable (s : State) : Host.Outcome State Fault Refusal :=
  throughBank
    (fun t => rmw t.cfg.aChopconf [(t.cfg.fToff, t.cfg.toffDisable)] (recordSoftware false t)) s

/-- `enable`: the hardware stage, then the software stage (R155). -/
def enable (s : State) : Host.Outcome State Fault Refusal := softwareEnable (hardwareEnabled s)

/-- `disable`: the hardware stage, then the software stage (R156, C7). -/
def disable (s : State) : Host.Outcome State Fault Refusal := softwareDisable (hardwareDisabled s)

/-- `minimizeMotorCurrent`: the global-scale register written whole with `P2GS(0)`, then one RMW of both
current fields to `P2CS(0)` (R158, C3). -/
def minimizeMotorCurrent (s : State) : Host.Outcome State Fault Refusal :=
  throughBank
    (fun t =>
      bankWrite t.cfg.aGlobalScaler (insertField 0 t.cfg.fGs (codeWord (p2gs t.cfg 0)))
        (pushCalls
          [.proc (.rmw t.cfg.aIholdIrun
            [(t.cfg.fIrun, codeWord (p2cs t.cfg 0)), (t.cfg.fIhold, codeWord (p2cs t.cfg 0))])]
          t)) s

/-- `setup`: bind the bank, note the off-time `softwareEnable` will write (no bus traffic and, the value
being a parameter, no state: D26), then `disable`, `minimizeMotorCurrent` and
`disableAutomaticCurrentControl` in that order (R157). Without a pin the record of the hardware
component is left as it was (assumption log 26). -/
def setup (s : State) : Host.Outcome State Fault Refusal :=
  .next (pushCalls
    [.proc .disable, .proc .minimizeMotorCurrent, .proc .disableAutomaticCurrentControl]
    (bindBank s))

/-- `setRunCurrent(p)` (R159). -/
def setRunCurrent (p : Byte) (s : State) : Host.Outcome State Fault Refusal :=
  throughBank (fun t => rmw t.cfg.aIholdIrun [(t.cfg.fIrun, codeWord (p2cs t.cfg p))] t) s

/-- `setHoldCurrent(p)` (R160). -/
def setHoldCurrent (p : Byte) (s : State) : Host.Outcome State Fault Refusal :=
  throughBank (fun t => rmw t.cfg.aIholdIrun [(t.cfg.fIhold, codeWord (p2cs t.cfg p))] t) s

/-- `setHoldDelay(p)` (R161). -/
def setHoldDelay (p : Byte) (s : State) : Host.Outcome State Fault Refusal :=
  throughBank (fun t => rmw t.cfg.aIholdIrun [(t.cfg.fIholdDelay, codeWord (p2hd t.cfg p))] t) s

/-- `setAllCurrentValues(run, hold, delay)`: three fields, one bus write (R162). -/
def setAllCurrentValues (run hold delay : Byte) (s : State) : Host.Outcome State Fault Refusal :=
  throughBank
    (fun t => rmw t.cfg.aIholdIrun
      [(t.cfg.fIrun, codeWord (p2cs t.cfg run)), (t.cfg.fIhold, codeWord (p2cs t.cfg hold)),
       (t.cfg.fIholdDelay, codeWord (p2hd t.cfg delay))] t) s

/-- Set the global scaler from a percent: the register is written whole (R163, D27). -/
def setGlobalScaler (p : Byte) (s : State) : Host.Outcome State Fault Refusal :=
  throughBank
    (fun t => bankWrite t.cfg.aGlobalScaler
      (insertField 0 t.cfg.fGs (codeWord (p2gs t.cfg p))) t) s

/-- Set both automatic-control flags (R164). -/
def enableAutomaticCurrentControl (s : State) : Host.Outcome State Fault Refusal :=
  throughBank
    (fun t => rmw t.cfg.aPwmconf [(t.cfg.fAutoscale, 1), (t.cfg.fAutograd, 1)] t) s

/-- Clear both automatic-control flags (R164). -/
def disableAutomaticCurrentControl (s : State) : Host.Outcome State Fault Refusal :=
  throughBank
    (fun t => rmw t.cfg.aPwmconf [(t.cfg.fAutoscale, 0), (t.cfg.fAutograd, 0)] t) s

/-- The hardware stage: the pin is low, or there is no pin, when it is always on (R18, R152, R165). The
record of the Driver plays no part in it (assumption log 26). -/
def hardwareStage (s : State) : Bool :=
  match s.driver.hwPin with
  | some _ => decide (s.driver.pinLevel = .low)
  | none => true

/-- The software stage: the cached off-time field holds a non-sentinel value (R18, R165); no answer
while the chopper-config entry has no value. -/
def softwareStage (s : State) : Option Bool :=
  (s.cache.read s.cfg.aChopconf.toNat).map
    (fun r => decide (extractField r s.cfg.fToff ≠ s.cfg.toffDisable))

/-- The motor driver output is active only when both stages are (R165). -/
def effectiveEnable (s : State) : Option Bool :=
  (softwareStage s).map (fun sw => hardwareStage s && sw)

end Sys2Proof.Machine
end

