-- ==== Sys2Proof/Machine/Caller.lean ====
section
/-! DEFINITION. What each context procedure does when the caller reaches it (spec/30_encoding.md R61). -/

namespace Sys2Proof.Machine

/-- One arm per procedure. -/
def runProc (p : Proc) (s : State) : Host.Outcome State Fault Refusal :=
  match p with
  | .xchg tx => xchg tx s
  | .writeReg a v => writeReg a v s
  | .readReg a => readReg a s
  | .returnPayload => returnPayload s
  | .bankWrite a v => bankWrite a v s
  | .getStored a => getStored a s
  | .bankRead a => bankRead a s
  | .bankStore a => bankStore a s
  | .rmw a fields => rmw a fields s
  | .hardwareEnable => hardwareEnable s
  | .hardwareDisable => hardwareDisable s
  | .softwareEnable => softwareEnable s
  | .softwareDisable => softwareDisable s
  | .enable => enable s
  | .disable => disable s
  | .setup => setup s
  | .minimizeMotorCurrent => minimizeMotorCurrent s
  | .setRunCurrent p => setRunCurrent p s
  | .setHoldCurrent p => setHoldCurrent p s
  | .setHoldDelay p => setHoldDelay p s
  | .setAllCurrentValues run hold delay => setAllCurrentValues run hold delay s
  | .setGlobalScaler p => setGlobalScaler p s
  | .enableAutomaticCurrentControl => enableAutomaticCurrentControl s
  | .disableAutomaticCurrentControl => disableAutomaticCurrentControl s
  | .statusRead => statusRead s

/-- Bytes the decoder refuses are refused by the decoder's name for them. -/
def decodeRefusal (e : DecodeError) : Refusal :=
  match e with
  | .notAnOpSelect => .notAnOpSelect
  | .notAFrame => .notAFrame

/-- The next call with the rest of the caller's program, if the caller has one (R14, R37). -/
def takeCall (s : State) : Option (Call × State) :=
  match s.calls with
  | [] => none
  | c :: rest => some (c, setCalls rest s)

/-- The word placed as the caller's next call. -/
def placeCode (c : Code) (s : State) : State := pushCalls [.word c] s

end Sys2Proof.Machine
end

