-- ==== Sys2Proof/Machine/Codec.lean ====
section
/-! DEFINITION. The codec operations ENC and DEC, and the reserved operation select (spec/40_codec.md R70, R71;
spec/30_encoding.md R57). -/

namespace Sys2Proof.Machine

/-- ENC drives `tx` from `addr`, `rw`, `wdata` (R70). -/
def execEnc (s : State) : Host.Outcome State Fault Refusal :=
  .next (selectOp 0 (.tx (encFrame s.inp.addr s.inp.rw s.inp.wdata)) s)

/-- DEC drives `status` and `rdata` from `rx` (R71). -/
def execDec (s : State) : Host.Outcome State Fault Refusal :=
  .next (selectOp 1 (.reply (decStatus s.inp.rx) (decPayload s.inp.rx)) s)

/-- `op = 7` selects no operation; the model refuses it (R57). -/
def execReserved7 (_s : State) : Host.Outcome State Fault Refusal :=
  .refused .reservedOperation

end Sys2Proof.Machine
end

