-- ==== Sys2Proof/Machine/Mapper.lean ====
section
/-! DEFINITION. The percent mapper operations (spec/43_percent_mapper.md R122 to R126). Each drives `result` alone;
none sets a flag or raises an exception. -/

namespace Sys2Proof.Machine

/-- P2CS (R122). -/
def execP2cs (s : State) : Host.Outcome State Fault Refusal :=
  .next (selectOp 2 (.result (p2cs s.cfg s.inp.pct)) s)

/-- CS2P (R123). -/
def execCs2p (s : State) : Host.Outcome State Fault Refusal :=
  .next (selectOp 3 (.result (cs2p s.cfg s.inp.code)) s)

/-- P2HD (R124). -/
def execP2hd (s : State) : Host.Outcome State Fault Refusal :=
  .next (selectOp 4 (.result (p2hd s.cfg s.inp.pct)) s)

/-- HD2P (R125). -/
def execHd2p (s : State) : Host.Outcome State Fault Refusal :=
  .next (selectOp 5 (.result (hd2p s.cfg s.inp.code)) s)

/-- P2GS (R126). -/
def execP2gs (s : State) : Host.Outcome State Fault Refusal :=
  .next (selectOp 6 (.result (p2gs s.cfg s.inp.pct)) s)

end Sys2Proof.Machine
end

