-- ==== Sys2Proof/Machine/Wire.lean ====
section
/-! DEFINITION. The wire frames: the two datagrams, each one exchange on the bus, and the reply
(spec/30_encoding.md R52, R53; spec/41_transport.md R90 to R94, R97). -/

namespace Sys2Proof.Machine

/-- A WRITE datagram is exchanged: the peer is asked to store `d` in register `a`, which
receives it (R53, R92). -/
def execWrite (a : BitVec 7) (d : Word) (s : State) : Host.Outcome State Fault Refusal :=
  exchange a 1 d s

/-- A READ datagram is exchanged: the peer is asked to return register `a` in the next reply (R53, R97). -/
def execRead (a : BitVec 7) (d : Word) (s : State) : Host.Outcome State Fault Refusal :=
  exchange a 0 d s

/-- A reply arrives: it stands on `rx`, DEC takes it apart and its status is captured (R52, R71, R91). The
frame format is the SPI variant's only (R59). -/
def execReply (st : Byte) (d : Word) (s : State) : Host.Outcome State Fault Refusal :=
  match s.variant with
  | .uart => .refused .uartNotImplemented
  | .spi => .next (receiveReply (misoFrame st d) s)

end Sys2Proof.Machine
end

