-- ==== Sys2Proof/Machine/Dispatch.lean ====
section
/-! DEFINITION. One arm per constructor of Instr, each one direct call of its meaning. -/

namespace Sys2Proof.Machine

def exec (i : Instr) (s : State) : Host.Outcome State Fault Refusal :=
  match i with
  | .enc => Sys2Proof.Machine.execEnc s
  | .dec => Sys2Proof.Machine.execDec s
  | .p2cs => Sys2Proof.Machine.execP2cs s
  | .cs2p => Sys2Proof.Machine.execCs2p s
  | .p2hd => Sys2Proof.Machine.execP2hd s
  | .hd2p => Sys2Proof.Machine.execHd2p s
  | .p2gs => Sys2Proof.Machine.execP2gs s
  | .reserved7 => Sys2Proof.Machine.execReserved7 s
  | .write a d => Sys2Proof.Machine.execWrite a d s
  | .read a d => Sys2Proof.Machine.execRead a d s
  | .reply st d => Sys2Proof.Machine.execReply st d s

end Sys2Proof.Machine
end

