-- ==== Sys2Proof/Machine/Step.lean ====
section
/-! DEFINITION. One step: the caller's next call, in program order (spec/10_state.md R14; spec/20_memory.md R37). -/

namespace Sys2Proof.Machine

/-- One step. With no call waiting nothing happens: there is no background task (R14). A word is decoded
and executed; ports are driven; a procedure runs. -/
def step (s : State) : Host.Outcome State Fault Refusal :=
  match takeCall s with
  | none => .next s
  | some (.drive inp, t) => .next (drivePorts inp t)
  | some (.proc p, t) => runProc p t
  | some (.word c, t) =>
    match decode c with
    | .ok i => exec i t
    | .error e => .refused (decodeRefusal e)

/-- `s` with a word of the table as the caller's next call, so that the very next step runs it. -/
def State.withFetchWord (s : State) (nbits w : Nat) : State := placeCode (tableCode nbits w) s

end Sys2Proof.Machine
end

