-- ==== Sys2Proof/Safety.lean ====
section
/-! DEFINITION. The terms claims are made in: the invariants of the machine, the launch premises, the events of an
exchange, and runs of the machine. -/

namespace Sys2Proof.Machine

/-! ### Invariants and launch premises -/

/-- The block is combinational: its outputs are the function of its present inputs (R10, R22, R200). -/
abbrev Settled (s : State) : Prop := s.out = blockOutputs s.cfg s.op s.inp

/-- Both register maps are in canonical form: 256 identifiers in the cache (R17), 128 registers at the
peer (R30). -/
abbrev MapsWf (s : State) : Prop := s.cache.wf 256 = true ∧ s.peer.regs.wf 128 = true

/-- `transport_configured_and_reliable`, the launch premise of R201, for the SPI variant (R99). -/
abbrev BusReady (s : State) : Prop := s.variant = .spi ∧ s.bus = .reliable

/-- An exchange completes on the SPI variant: the bus is reliable, or malfunctions and returns garbage
(R94). -/
abbrev BusCompletes (s : State) : Prop := s.variant = .spi ∧ (s.bus = .reliable ∨ s.bus = .garbage)

/-- The premises of the Driver's procedures: the launch premise of the bus (R201), a bound bank (R202) and
parameters within their constraints (R5, R6). -/
abbrev DriverReady (s : State) : Prop := BusReady s ∧ s.driver.bound = true ∧ s.cfg.Valid

/-- What is fixed for a run: the parameters, the variant, the condition of the bus, the pin, and which
peer answers (R5, R6, R21, R24, R99, R201). -/
abbrev SameLaunch (s t : State) : Prop :=
  t.cfg = s.cfg ∧ t.variant = s.variant ∧ t.bus = s.bus ∧ t.driver.hwPin = s.driver.hwPin ∧
  t.peer.kind = s.peer.kind ∧ t.peer.st = s.peer.st

/-- The seven operations of the block (R10, R56). -/
def blockOp (i : Instr) : Bool :=
  match i with
  | .enc => true
  | .dec => true
  | .p2cs => true
  | .cs2p => true
  | .p2hd => true
  | .hd2p => true
  | .p2gs => true
  | .reserved7 => false
  | .write _ _ => false
  | .read _ _ => false
  | .reply _ _ => false

/-! ### Exchanges -/

/-- The events of one completed exchange: the bracket and the five byte exchanges (R72, R90), then the
status capture (R91). -/
def exchangeEvents (tx rx : Frame) : List BusEvent :=
  [.beginTransaction, .csAssert,
   .xfer tx.b0 rx.b0, .xfer tx.b1 rx.b1, .xfer tx.b2 rx.b2, .xfer tx.b3 rx.b3, .xfer tx.b4 rx.b4,
   .csDeassert, .endTransaction,
   .maskInterrupts, .capture rx.b0, .restoreInterrupts]

/-- What an instruction adds to the record: a datagram its exchange, a reply its capture, an operation of
the block nothing (R37, R90, R91). -/
def InstrEvents (i : Instr) (events : List BusEvent) : Prop :=
  match i with
  | .enc => events = []
  | .dec => events = []
  | .p2cs => events = []
  | .cs2p => events = []
  | .p2hd => events = []
  | .hd2p => events = []
  | .p2gs => events = []
  | .reserved7 => events = []
  | .write a d => ∃ rx, events = exchangeEvents (mosiFrame a 1 d) rx
  | .read a d => ∃ rx, events = exchangeEvents (mosiFrame a 0 d) rx
  | .reply st _ => events = [.maskInterrupts, .capture st, .restoreInterrupts]

/-- The write of a configured pin; nothing without one (R151, R152). -/
def pinEvents (hwPin : Option Nat) (level : Level) : List BusEvent :=
  match hwPin with
  | some pin => [.pinWrite pin level]
  | none => []

/-- What the first step of a procedure adds to the record: its pin write. Its exchanges are calls of their
own (R151, R152, R155, R156). -/
def procEvents (hwPin : Option Nat) (p : Proc) : List BusEvent :=
  match p with
  | .hardwareEnable => pinEvents hwPin .low
  | .enable => pinEvents hwPin .low
  | .hardwareDisable => pinEvents hwPin .high
  | .disable => pinEvents hwPin .high
  | _ => []

/-- What a step adds to the record when `c` is the caller's next call. -/
def CallEvents (hwPin : Option Nat) (c : Call) (events : List BusEvent) : Prop :=
  match c with
  | .drive _ => events = []
  | .word w => ∃ i, decode w = .ok i ∧ InstrEvents i events
  | .proc p => events = procEvents hwPin p

/-- The calls are one exchange of a WRITE datagram for register `a`. -/
abbrev OneWrite (a : Byte) (placed : List Call) : Prop :=
  ∃ v, placed = [exchangeCall (encFrame a 1 v)]

/-- The calls the first step of a procedure places in front of the caller's remaining ones: its exchanges,
each once and in order, and what it does after them (R61, R37). -/
def ProcPlaces (c : Params) (p : Proc) (placed : List Call) : Prop :=
  match p with
  | .xchg tx => placed = [exchangeCall tx]
  | .writeReg a v => placed = [exchangeCall (encFrame a 1 v)]
  | .readReg a =>
    placed = [exchangeCall (encFrame a 0 0), exchangeCall (encFrame a 0 0), .proc .returnPayload]
  | .returnPayload => placed = []
  | .bankWrite a v => placed = [exchangeCall (encFrame a 1 v)]
  | .getStored _ => placed = []
  | .bankRead a =>
    placed = [exchangeCall (encFrame a 0 0), exchangeCall (encFrame a 0 0), .proc .returnPayload,
      .proc (.bankStore a)]
  | .bankStore _ => placed = []
  | .rmw a _ => OneWrite a placed
  | .hardwareEnable => placed = []
  | .hardwareDisable => placed = []
  | .softwareEnable => OneWrite c.aChopconf placed
  | .softwareDisable => OneWrite c.aChopconf placed
  | .enable => OneWrite c.aChopconf placed
  | .disable => OneWrite c.aChopconf placed
  | .setup =>
    placed = [.proc .disable, .proc .minimizeMotorCurrent, .proc .disableAutomaticCurrentControl]
  | .minimizeMotorCurrent =>
    ∃ g fields, placed = [exchangeCall (encFrame c.aGlobalScaler 1 g), .proc (.rmw c.aIholdIrun fields)]
  | .setRunCurrent _ => OneWrite c.aIholdIrun placed
  | .setHoldCurrent _ => OneWrite c.aIholdIrun placed
  | .setHoldDelay _ => OneWrite c.aIholdIrun placed
  | .setAllCurrentValues _ _ _ => OneWrite c.aIholdIrun placed
  | .setGlobalScaler _ => OneWrite c.aGlobalScaler placed
  | .enableAutomaticCurrentControl => OneWrite c.aPwmconf placed
  | .disableAutomaticCurrentControl => OneWrite c.aPwmconf placed
  | .statusRead => placed = []

/-- The calls a step places in front of the caller's remaining ones when `c` is the next: only a procedure
places any. -/
def CallPlaces (cfg : Params) (c : Call) (placed : List Call) : Prop :=
  match c with
  | .drive _ => placed = []
  | .word _ => placed = []
  | .proc p => ProcPlaces cfg p placed

/-- The status of the last capture in a record of events, if there is one. -/
def lastCapture (events : List BusEvent) : Option Byte :=
  events.foldl
    (fun acc e =>
      match e with
      | .capture status => some status
      | _ => acc)
    none

/-- `last_status` is the status of the most recent exchange (R16). -/
abbrev StatusCurrent (s : State) : Prop :=
  lastCapture s.trace = none ∨ lastCapture s.trace = some s.lastStatus

/-- `t` is `s` but for what an exchange changes: the `rx` port, DEC's selection and outputs, `last_status`,
the record of events, the peer, and the draw counter. -/
abbrev SameButExchange (s t : State) : Prop :=
  { t with op := s.op, inp := s.inp, out := s.out, lastStatus := s.lastStatus, trace := s.trace,
           peer := s.peer, draws := s.draws } = s ∧
  { t.inp with rx := s.inp.rx } = s.inp

/-- `t` is `s` but for what a bank procedure's register write changes: the ports of ENC and DEC, their
outputs, `last_status`, the record of events, the peer, the draw counter, the cache, and the caller's
remaining calls. -/
abbrev SameButWriteThrough (s t : State) : Prop :=
  { t with op := s.op, inp := s.inp, out := s.out, lastStatus := s.lastStatus, trace := s.trace,
           peer := s.peer, draws := s.draws, cache := s.cache, calls := s.calls } = s ∧
  t.inp.pct = s.inp.pct ∧ t.inp.code = s.inp.code

/-- From `s` to `t` register `a` was written through with `v`: the entry and no other was set, one WRITE
exchange happened, and the peer's register received the value (R92). At the reference peer the register
then holds it and no other changed (R98); of the content of the chip's registers nothing is said (R35,
R97; assumption log 27). -/
def WrittenThrough (s t : State) (a : Byte) (v : Word) : Prop :=
  t.cache.read a.toNat = some v ∧
  (∀ b, b ≠ a.toNat → t.cache.read b = s.cache.read b) ∧
  (∃ rx, t.trace = s.trace ++ exchangeEvents (encFrame a 1 v) rx) ∧
  t.peer.received = some (a.toNat % 128, v) ∧
  (s.peer.kind = .reference → t.peer.regs.read (a.toNat % 128) = some v ∧
    ∀ b, b ≠ a.toNat % 128 → t.peer.regs.read b = s.peer.regs.read b)

/-! ### Outcomes and runs -/

/-- `k` steps of the machine. -/
def runSteps (k : Nat) (s : State) : Host.Outcome State Fault Refusal :=
  Host.Core.run Sys2Proof.core k s

/-- The machine is not stuck: the outcome is a next state or a refusal, not a fault. -/
def notStuck (o : Host.Outcome State Fault Refusal) : Bool :=
  match o with
  | .next _ => true
  | .fault _ => false
  | .refused _ => true

end Sys2Proof.Machine
end

