-- ==== Sys2Proof/Certificates/Slice0/Obligations.lean ====
section
/-! DEFINITION. The statements for the provers. Each docstring names the rules of spec/ it rests on. -/

open Sys2Proof Sys2Proof.Machine

/-! ### The Datagram Codec -/

/-- R70: ENC sets `tx` to `{addr[6:0], rw}` and the payload bytes, most significant first, for every input,
and changes nothing but the selection and the outputs. -/
def Obligations.EncDrivesTheFrame : Prop :=
  ∀ s : State, ∃ f : Frame,
    exec .enc s = .next { s with op := 0, out := .tx f } ∧
    f.b0.toNat = 2 * (s.inp.addr.toNat % 128) + s.inp.rw.toNat ∧
    f.b1.toNat = s.inp.wdata.toNat / 2 ^ 24 ∧
    f.b2.toNat = s.inp.wdata.toNat / 2 ^ 16 % 256 ∧
    f.b3.toNat = s.inp.wdata.toNat / 2 ^ 8 % 256 ∧
    f.b4.toNat = s.inp.wdata.toNat % 256

/-- R71: DEC returns byte 0 as the status and bytes 1 to 4, most significant first, as the payload, for
every input, and changes nothing but the selection and the outputs. -/
def Obligations.DecTakesTheFrameApart : Prop :=
  ∀ s : State, ∃ d : Word,
    exec .dec s = .next { s with op := 1, out := .reply s.inp.rx.b0 d } ∧
    d.toNat = s.inp.rx.b1.toNat * 2 ^ 24 + s.inp.rx.b2.toNat * 2 ^ 16 +
      s.inp.rx.b3.toNat * 2 ^ 8 + s.inp.rx.b4.toNat

/-- R73: the fields of `ENC(a, w, d)` read back for a 7-bit `a`; ENC on 7-bit addresses and DEC are
bijections; an outbound frame fed to DEC returns `{a, w}` and `d`. -/
def Obligations.CodecRoundTripsAndIsBijective : Prop :=
  (∀ (a : Byte) (w : BitVec 1) (d : Word), a.toNat < 128 →
    ((frameAddr (encFrame a w d)).toNat = a.toNat ∧ frameFlag (encFrame a w d) = w ∧
      framePayload (encFrame a w d) = d) ∧
    (decStatus (encFrame a w d)).toNat = 2 * a.toNat + w.toNat ∧ decPayload (encFrame a w d) = d) ∧
  (∀ f : Frame, ∃! x : BitVec 7 × BitVec 1 × Word, encFrame (x.1.setWidth 8) x.2.1 x.2.2 = f) ∧
  (∀ rx : Frame, rx.b0 = decStatus rx ∧ framePayload rx = decPayload rx) ∧
  (∀ y : Byte × Word, ∃! rx : Frame, (decStatus rx, decPayload rx) = y)

/-- R75: ENC uses `addr[6:0]` and ignores `addr[7]`, so an identifier and its residue modulo 128 give the
same frame, and the flag bit is never disturbed by the address. -/
def Obligations.EncIgnoresIdentifierBitSeven : Prop :=
  ∀ (s : State) (a : Byte), ∃ f : Frame,
    exec .enc { s with inp := { s.inp with addr := a } } =
      .next { s with inp := { s.inp with addr := a }, op := 0, out := .tx f } ∧
    exec .enc { s with inp := { s.inp with addr := BitVec.ofNat 8 (a.toNat % 128) } } =
      .next { s with inp := { s.inp with addr := BitVec.ofNat 8 (a.toNat % 128) },
                     op := 0, out := .tx f } ∧
    f.b0.toNat % 2 = s.inp.rw.toNat

/-! ### The percent mapper -/

/-- R121: the formula of LMAP and its properties. -/
def Obligations.LinearMapIsBoundedAndMonotone : Prop :=
  ∀ x inLo inHi outLo outHi : Nat, inLo ≤ x → x ≤ inHi → inLo < inHi → outLo ≤ outHi →
    lmap x inLo inHi outLo outHi = outLo + ((x - inLo) * (outHi - outLo)) / (inHi - inLo) ∧
    outLo ≤ lmap x inLo inHi outLo outHi ∧ lmap x inLo inHi outLo outHi ≤ outHi ∧
    lmap inLo inLo inHi outLo outHi = outLo ∧ lmap inHi inLo inHi outLo outHi = outHi ∧
    (∀ y, x ≤ y → y ≤ inHi → lmap x inLo inHi outLo outHi ≤ lmap y inLo inHi outLo outHi) ∧
    (outLo < outHi → lmap x inLo inHi outLo outHi = outHi → x = inHi)

/-- R122: P2CS. -/
def Obligations.P2csMapsPercentToCurrentSetting : Prop :=
  ∀ s : State, s.cfg.MapperValid → ∃ r : Byte,
    exec .p2cs s = .next { s with op := 2, out := .result r } ∧
    r.toNat = s.cfg.csMin + (min s.inp.pct.toNat 100 * (s.cfg.csMax - s.cfg.csMin)) / 100 ∧
    s.cfg.csMin ≤ r.toNat ∧ r.toNat ≤ s.cfg.csMax ∧
    (s.inp.pct.toNat = 0 → r.toNat = s.cfg.csMin) ∧
    (100 ≤ s.inp.pct.toNat → r.toNat = s.cfg.csMax) ∧
    (s.cfg = Params.defaults → s.inp.pct.toNat ≤ 3 → r.toNat = 0)

/-- R123: CS2P, the code clamped into its range and then mapped onto [0, 100]. -/
def Obligations.Cs2pMapsCurrentSettingToPercent : Prop :=
  (∀ s : State, s.cfg.MapperValid → ∃ r : Byte,
    exec .cs2p s = .next { s with op := 3, out := .result r } ∧
    r.toNat = ((min (max s.inp.code.toNat s.cfg.csMin) s.cfg.csMax - s.cfg.csMin) * 100) /
      (s.cfg.csMax - s.cfg.csMin) ∧
    r.toNat ≤ 100 ∧
    (s.inp.code.toNat = s.cfg.csMin → r.toNat = 0) ∧
    (s.cfg.csMax ≤ s.inp.code.toNat → r.toNat = 100)) ∧
  p2cs Params.defaults (cs2p Params.defaults 15) = 14

/-- R124: P2HD. -/
def Obligations.P2hdMapsPercentToHoldDelay : Prop :=
  ∀ s : State, s.cfg.MapperValid → ∃ r : Byte,
    exec .p2hd s = .next { s with op := 4, out := .result r } ∧
    r.toNat = s.cfg.hdMin + (min s.inp.pct.toNat 100 * (s.cfg.hdMax - s.cfg.hdMin)) / 100 ∧
    s.cfg.hdMin ≤ r.toNat ∧ r.toNat ≤ s.cfg.hdMax ∧
    (s.inp.pct.toNat = 0 → r.toNat = s.cfg.hdMin) ∧
    (100 ≤ s.inp.pct.toNat → r.toNat = s.cfg.hdMax)

/-- R125: HD2P, the code clamped into its range and then mapped onto [0, 100]. -/
def Obligations.Hd2pMapsHoldDelayToPercent : Prop :=
  ∀ s : State, s.cfg.MapperValid → ∃ r : Byte,
    exec .hd2p s = .next { s with op := 5, out := .result r } ∧
    r.toNat = ((min (max s.inp.code.toNat s.cfg.hdMin) s.cfg.hdMax - s.cfg.hdMin) * 100) /
      (s.cfg.hdMax - s.cfg.hdMin) ∧
    r.toNat ≤ 100

/-- R126: P2GS, with the dead-zone clamp below the threshold and the wrap to 0 at the top. That the linear
value is `GS_MAX`, and the result 0, exactly when the percent is 100 or more is the sentence "`s =
GS_MAX` happens exactly when `CLAMP(pct) = 100`, so `P2GS(pct) = 0` if and only if `pct ≥ 100`", which
R126 marks as derived from R121. -/
def Obligations.P2gsClampsTheDeadZoneAndWrapsTheTop : Prop :=
  ∀ s : State, s.cfg.MapperValid → ∃ (r : Byte) (linear : Nat),
    exec .p2gs s = .next { s with op := 6, out := .result r } ∧
    linear = s.cfg.gsMin + (min s.inp.pct.toNat 100 * (s.cfg.gsMax - s.cfg.gsMin)) / 100 ∧
    (linear < s.cfg.gsThreshold → r.toNat = s.cfg.gsThreshold) ∧
    (s.cfg.gsThreshold ≤ linear → s.cfg.gsMax ≤ linear → r.toNat = 0) ∧
    (s.cfg.gsThreshold ≤ linear → linear < s.cfg.gsMax → r.toNat = linear) ∧
    (linear = s.cfg.gsMax ↔ 100 ≤ s.inp.pct.toNat) ∧
    (r.toNat = 0 ↔ 100 ≤ s.inp.pct.toNat) ∧
    (s.inp.pct.toNat = 0 → r.toNat = s.cfg.gsThreshold) ∧
    (r.toNat = 0 ∨ s.cfg.gsThreshold ≤ r.toNat ∧ r.toNat ≤ s.cfg.gsMax - 1)

/-- R120, R129: CLAMP gives `p` up to 100 and 100 above, is idempotent, and a percent above 100 is mapped
as 100 is. -/
def Obligations.PercentsAboveTheRangeActAsOneHundred : Prop :=
  ∀ (c : Params) (p : Byte),
    (clampPct p).toNat = min (max p.toNat 0) 100 ∧ clampPct (clampPct p) = clampPct p ∧
    (p.toNat ≤ 100 → clampPct p = p) ∧
    (100 < p.toNat → clampPct p = 100 ∧ p2cs c p = p2cs c 100 ∧ p2hd c p = p2hd c 100 ∧
      p2gs c p = p2gs c 100)

/-- R130: the round trip never overshoots and loses at most `floor(1 + 98 / R)`, for the current setting and
for the hold delay; with the defaults the bounds 4 and 7 are reached. -/
def Obligations.RoundTripLosesAtMostOneUnit : Prop :=
  (∀ (c : Params) (p : Byte), c.MapperValid → p.toNat ≤ 100 →
    ((cs2p c (p2cs c p)).toNat ≤ p.toNat ∧
      p.toNat - (cs2p c (p2cs c p)).toNat ≤ 1 + 98 / (c.csMax - c.csMin)) ∧
    ((hd2p c (p2hd c p)).toNat ≤ p.toNat ∧
      p.toNat - (hd2p c (p2hd c p)).toNat ≤ 1 + 98 / (c.hdMax - c.hdMin))) ∧
  (1 + 98 / (Params.defaults.csMax - Params.defaults.csMin) = 4 ∧
    cs2p Params.defaults (p2cs Params.defaults 16) = 12 ∧
    1 + 98 / (Params.defaults.hdMax - Params.defaults.hdMin) = 7 ∧
    hd2p Params.defaults (p2hd Params.defaults 13) = 6)

/-- R131: P2CS and P2HD are non-decreasing and constant from 100 upward; P2GS is the threshold on the dead
zone, non-decreasing up to 99, and 0 from 100 upward. -/
def Obligations.ShapeOfTheThreeMaps : Prop :=
  ∀ (c : Params) (p q : Byte), c.MapperValid →
    (p.toNat ≤ q.toNat →
      (p2cs c p).toNat ≤ (p2cs c q).toNat ∧ (p2hd c p).toNat ≤ (p2hd c q).toNat) ∧
    (100 ≤ p.toNat → 100 ≤ q.toNat → p2cs c p = p2cs c q ∧ p2hd c p = p2hd c q ∧
      p2gs c p = 0) ∧
    (p.toNat ≤ q.toNat → q.toNat ≤ 99 → (p2gs c p).toNat ≤ (p2gs c q).toNat) ∧
    (gsLinear c p < c.gsThreshold → (p2gs c p).toNat = c.gsThreshold) ∧
    (c.csMin ≤ (p2cs c p).toNat ∧ (p2cs c p).toNat ≤ c.csMax) ∧
    (c.hdMin ≤ (p2hd c p).toNat ∧ (p2hd c p).toNat ≤ c.hdMax) ∧
    ((p2gs c p).toNat = 0 ∨
      c.gsThreshold ≤ (p2gs c p).toNat ∧ (p2gs c p).toNat ≤ c.gsMax - 1) ∧
    ((cs2p c p).toNat ≤ 100 ∧ (hd2p c p).toNat ≤ 100)

/-- R10: each of the seven operations completes in every state, gives equal outputs for equal inputs, and
an evaluation before it changes nothing of what it returns. -/
def Obligations.BlockOperationsHoldNoState : Prop :=
  ∀ (i j : Instr) (s t : State), blockOp i = true → blockOp j = true →
    s.cfg = t.cfg → s.inp = t.inp →
    ∃ s1 t1 s2 s3, exec i s = .next s1 ∧ exec i t = .next t1 ∧ s1.out = t1.out ∧
      exec j s = .next s2 ∧ exec i s2 = .next s3 ∧ s3.out = s1.out

/-- R57: a 3-bit operation select is refused exactly when it is the reserved code 7. -/
def Obligations.OnlyTheReservedSelectIsRefused : Prop :=
  (∀ s : State, exec .reserved7 s = .refused .reservedOperation) ∧
  ∀ (s : State) (op : BitVec 3) (rest : List Call),
    s.calls = .word (.opsel [op.setWidth 8]) :: rest →
    (op = 7 → step s = .refused .reservedOperation) ∧
    (op ≠ 7 → ∃ t, step s = .next t ∧ t.op = op ∧ t.out = blockOutputs s.cfg op s.inp ∧
      t.out ≠ .undriven)

/-! ### The wire -/

/-- R53, R90, R91, R92: a WRITE datagram is one exchange. Its nine bus events and three capture events stand
in order, the reply is decoded and its status captured, the peer's register `a` receives the payload,
and nothing else of the machine changes. At the reference peer the register then holds the payload and
no other changes (R98); of the chip's registers no content is known, for whether and when it applies the
write is open (R35, R37, R97). The list of known contents and the field `received` are the model's own
record (assumption log 8, 27). -/
def Obligations.WriteDatagramIsOneExchange : Prop :=
  ∀ (s : State) (a : BitVec 7) (d : Word), BusReady s → ∃ (t : State) (rx tx : Frame),
    exec (.write a d) s = .next t ∧ SameButExchange s t ∧
    (tx.b0.toNat = 2 * a.toNat + 1 ∧ tx.b1.toNat = d.toNat / 2 ^ 24 ∧
      tx.b2.toNat = d.toNat / 2 ^ 16 % 256 ∧ tx.b3.toNat = d.toNat / 2 ^ 8 % 256 ∧
      tx.b4.toNat = d.toNat % 256) ∧
    t.trace = s.trace ++
      [.beginTransaction, .csAssert, .xfer tx.b0 rx.b0, .xfer tx.b1 rx.b1, .xfer tx.b2 rx.b2,
       .xfer tx.b3 rx.b3, .xfer tx.b4 rx.b4, .csDeassert, .endTransaction,
       .maskInterrupts, .capture rx.b0, .restoreInterrupts] ∧
    t.op = 1 ∧ t.inp.rx = rx ∧ t.out = .reply rx.b0 (framePayload rx) ∧ t.lastStatus = rx.b0 ∧
    framePayload rx = s.peer.pend ∧
    t.peer.received = some (a.toNat, d) ∧
    (s.peer.kind = .reference → t.peer.regs.read a.toNat = some d ∧
      ∀ b, b ≠ a.toNat → t.peer.regs.read b = s.peer.regs.read b) ∧
    (s.peer.kind = .chip → ∀ b, t.peer.regs.read b = none)

/-- R53, R90, R91, R97: a READ datagram is one exchange, whose reply answers the exchange before it. The
content sampled of register `a` becomes the pending reply, and nothing else of the machine changes but
what an exchange changes. At the reference peer it is the stored content, and no other register
changes (R98); of the chip's registers nothing stays known, for a read may have side effects (R35).
The list of known contents and the field `sampled` are the model's own record (assumption log 8). -/
def Obligations.ReadDatagramIsOneExchange : Prop :=
  ∀ (s : State) (a : BitVec 7) (d : Word), BusReady s → ∃ (t : State) (rx tx : Frame),
    exec (.read a d) s = .next t ∧ SameButExchange s t ∧
    (tx.b0.toNat = 2 * a.toNat ∧ tx.b1.toNat = d.toNat / 2 ^ 24 ∧
      tx.b2.toNat = d.toNat / 2 ^ 16 % 256 ∧ tx.b3.toNat = d.toNat / 2 ^ 8 % 256 ∧
      tx.b4.toNat = d.toNat % 256) ∧
    t.trace = s.trace ++ exchangeEvents tx rx ∧
    t.op = 1 ∧ t.inp.rx = rx ∧ t.out = .reply rx.b0 (framePayload rx) ∧ t.lastStatus = rx.b0 ∧
    framePayload rx = s.peer.pend ∧
    t.peer.sampled = some (a.toNat, t.peer.pend) ∧
    (s.peer.kind = .reference → t.peer.regs.read a.toNat = some t.peer.pend ∧
      (∀ v, s.peer.regs.read a.toNat = some v → t.peer.pend = v) ∧
      ∀ b, b ≠ a.toNat → t.peer.regs.read b = s.peer.regs.read b) ∧
    (s.peer.kind = .chip → ∀ b, t.peer.regs.read b = none)

/-- R97: the payload of the reply to the exchange after a READ datagram for `a` is the content of register
`a`, whatever datagram that next exchange sends. The content is the one the datagram sampled, as the
model's record says (assumption log 8). -/
def Obligations.ReplyLagsTheRequestByOneExchange : Prop :=
  ∀ (s : State) (a b : BitVec 7) (d e : Word), BusReady s → ∃ t u1 u2 v,
    exec (.read a d) s = .next t ∧ t.peer.sampled = some (a.toNat, v) ∧
    exec (.read b e) t = .next u1 ∧ u1.out = .reply u1.lastStatus v ∧
    exec (.write b e) t = .next u2 ∧ u2.out = .reply u2.lastStatus v

/-- R98: the reference peer returns what was last written to a register. Read-back through two exchanges
after a WRITE gives the value written, with the constant status byte. -/
def Obligations.ReferencePeerReadsBackWhatWasWritten : Prop :=
  ∀ (s : State) (a : BitVec 7) (d : Word), BusReady s → s.peer.kind = .reference → ∃ t u v,
    exec (.write a d) s = .next t ∧ exec (.read a 0) t = .next u ∧ exec (.read a 0) u = .next v ∧
    v.out = .reply s.peer.st d ∧ v.lastStatus = s.peer.st

/-- R52, R71, R91: a reply frame is taken apart, most significant byte first, and its status captured;
nothing else changes. That a reply run by itself does this, adds no bus events and moves neither the
peer nor the bus is the model's choice (assumption log 21). -/
def Obligations.ReplyFrameIsDecodedAndCaptured : Prop :=
  ∀ (s : State) (st : Byte) (d : Word), s.variant = .spi → ∃ rx : Frame,
    exec (.reply st d) s = .next
      { s with op := 1, inp := { s.inp with rx := rx }, out := .reply st d, lastStatus := st,
               trace := s.trace ++ [.maskInterrupts, .capture st, .restoreInterrupts] } ∧
    rx.b0 = st ∧
    d.toNat = rx.b1.toNat * 2 ^ 24 + rx.b2.toNat * 2 ^ 16 + rx.b3.toNat * 2 ^ 8 + rx.b4.toNat

/-- R94: on a malfunctioning bus both datagrams complete and the caller is not told: five bytes are
exchanged, whatever came in is decoded, and its status captured. -/
def Obligations.MalfunctioningBusStillCompletes : Prop :=
  ∀ (s : State) (a : BitVec 7) (d : Word), s.variant = .spi → s.bus = .garbage →
    ∃ t u rx ry,
      exec (.write a d) s = .next t ∧ SameButExchange s t ∧
      t.trace = s.trace ++ exchangeEvents (mosiFrame a 1 d) rx ∧
      t.out = .reply rx.b0 (framePayload rx) ∧ t.lastStatus = rx.b0 ∧
      exec (.read a d) s = .next u ∧ SameButExchange s u ∧
      u.trace = s.trace ++ exchangeEvents (mosiFrame a 0 d) ry ∧
      u.out = .reply ry.b0 (framePayload ry) ∧ u.lastStatus = ry.b0

/-- R94, R99, R201: where a datagram stops. The UART variant is refused (R99), and so is an unconfigured
transport (the model's choice, assumption log 9), a bus that never completes leaves the caller stuck
(U9), and in every other state both datagrams complete. -/
def Obligations.DatagramsStopOnlyWithoutAWorkingTransport : Prop :=
  ∀ (s : State) (i : Instr), (∃ a d, i = .write a d ∨ i = .read a d) →
    (s.variant = .uart → exec i s = .refused .uartNotImplemented) ∧
    (s.variant = .spi → s.bus = .notConfigured → exec i s = .refused .transportNotConfigured) ∧
    (s.variant = .spi → s.bus = .hangs → exec i s = .fault .busNeverCompletes) ∧
    (s.variant = .spi → s.bus = .reliable ∨ s.bus = .garbage → ∃ t, exec i s = .next t)

/-! ### Encoding -/

/-- R51, R52, R56: decoding the encoded words of any instruction gives it back, every operand at every
value its field admits. -/
def Obligations.EveryEncodedInstructionDecodesBack : Prop :=
  ∀ i : Instr, decode (encode i) = .ok i

/-- R50, R56, R58: each word has one meaning. Whatever bytes the decoder accepts are the encoding of the
instruction it reads. -/
def Obligations.EveryAcceptedWordIsAnEncoding : Prop :=
  ∀ (c : Code) (i : Instr), decode c = .ok i → encode i = c

/-- R53, R58: every five bytes are a WRITE datagram when bit 32 of the frame is set and a READ datagram
when it is clear, with address `b[0][7:1]`, and are a reply as well. -/
def Obligations.EveryFiveBytesAreADatagramAndAReply : Prop :=
  ∀ b0 b1 b2 b3 b4 : Byte, ∃ (a : BitVec 7) (d : Word),
    a.toNat = b0.toNat / 2 ∧
    d.toNat = b1.toNat * 2 ^ 24 + b2.toNat * 2 ^ 16 + b3.toNat * 2 ^ 8 + b4.toNat ∧
    (b0.toNat % 2 = 1 → decode (.mosi [b0, b1, b2, b3, b4]) = .ok (.write a d)) ∧
    (b0.toNat % 2 = 0 → decode (.mosi [b0, b1, b2, b3, b4]) = .ok (.read a d)) ∧
    decode (.miso [b0, b1, b2, b3, b4]) = .ok (.reply b0 d)

/-- R51 to R53, R56: words written out from the spec's encodings decode to the instructions they stand
for. -/
def Obligations.SpecWordsDecodeAsTheSpecSays : Prop :=
  decode (.mosi [0x21, 0x00, 0x06, 0x1F, 0x0A]) = .ok (.write 0x10 0x00061F0A) ∧
  decode (.mosi [0x20, 0x00, 0x00, 0x00, 0x00]) = .ok (.read 0x10 0) ∧
  decode (.mosi [0x81, 0x80, 0x00, 0x00, 0x01]) = .ok (.write 0x40 0x80000001) ∧
  decode (.miso [0x09, 0x00, 0x06, 0x1F, 0x0A]) = .ok (.reply 0x09 0x00061F0A) ∧
  decode (.opsel [0]) = .ok .enc ∧ decode (.opsel [6]) = .ok .p2gs ∧
  decode (.opsel [7]) = .ok .reserved7

/-- R50: a byte sequence of any length but five is no frame, in either direction. That a step refuses it is
the model's choice (assumption log 16). -/
def Obligations.OtherLengthsAreRefused : Prop :=
  ∀ (s : State) (bs : List Byte) (rest : List Call), bs.length ≠ 5 →
    (s.calls = .word (.mosi bs) :: rest → step s = .refused .notAFrame) ∧
    (s.calls = .word (.miso bs) :: rest → step s = .refused .notAFrame)

/-! ### The step -/

/-- R14, R37: when the caller's next word decodes to an instruction, the step is the execution of that
instruction with the word taken from the caller's program. -/
def Obligations.StepExecutesTheDecodedInstruction : Prop :=
  ∀ (s : State) (c : Code) (rest : List Call) (i : Instr),
    s.calls = .word c :: rest → decode c = .ok i → step s = exec i { s with calls := rest }

/-- R14, R37: a procedure is run, ports are driven and the outputs follow, each with the call taken from
the caller's program; with no call waiting nothing happens. -/
def Obligations.StepFollowsTheCallersProgram : Prop :=
  (∀ (s : State) (p : Proc) (rest : List Call), s.calls = .proc p :: rest →
    step s = runProc p { s with calls := rest }) ∧
  (∀ (s : State) (inp : Inputs) (rest : List Call), s.calls = .drive inp :: rest →
    step s = .next { s with calls := rest, inp := inp, out := blockOutputs s.cfg s.op inp }) ∧
  (∀ s : State, s.calls = [] → step s = .next s)

/-- The model's convention (assumption log 7, 15): a word of the opcode table placed as the caller's next
call is what the very next step executes. -/
def Obligations.PlacedTableWordIsExecutedNext : Prop :=
  ∀ (s : State) (nbits w : Nat) (i : Instr), decodeTableWord nbits w = some i →
    step (s.withFetchWord nbits w) = exec i s

/-- R16, R91, R206, U16, with interrupts between steps only (the model's choice, assumption log 18): an
interrupt between two steps sees the status of the most recent exchange and
disturbs nothing; between the two exchanges of a read it sees the first reply's status. -/
def Obligations.InterruptReaderSeesTheLastStatus : Prop :=
  (∀ s : State, step (interruptArrives s) = .next { s with irqSeen := some s.lastStatus }) ∧
  (∀ (s : State) (a : BitVec 7) (d : Word), BusReady s → ∃ t u rx,
    exec (.read a d) s = .next t ∧ t.inp.rx = rx ∧
    step (interruptArrives t) = .next u ∧ u.irqSeen = some rx.b0)

/-! ### Invariants and rules of the whole machine -/

/-- R17, R30: every step keeps both register maps in canonical form. -/
def Obligations.StepKeepsRegisterMapsCanonical : Prop :=
  ∀ s t : State, MapsWf s → step s = .next t → MapsWf t

/-- R10, R22, R200: every step keeps the outputs equal to the function of the present inputs. -/
def Obligations.StepKeepsOutputsAFunctionOfInputs : Prop :=
  ∀ s t : State, Settled s → step s = .next t → Settled t

/-- R16: every step keeps `last_status` the status of the most recent capture. -/
def Obligations.StepKeepsStatusThatOfTheLastExchange : Prop :=
  ∀ s t : State, StatusCurrent s → step s = .next t → StatusCurrent t

/-- R21, R5, R6, R99: no step changes a parameter, the variant, the bus premise, the pin or the peer's
kind, and constraints on the parameters that hold go on holding. -/
def Obligations.StepKeepsLaunchArguments : Prop :=
  ∀ s t : State, step s = .next t → SameLaunch s t ∧ (s.cfg.Valid → t.cfg.Valid)

/-- R37: operations take effect in the order of the calls, and exchanges appear on the bus in that order,
never reordered, merged, dropped or retried. Every step appends to the record the events of the
caller's next call and no others, takes that call from the program, and places in front of the
remaining calls, which keep their order, exactly the exchanges of that call (assumption log 7). -/
def Obligations.StepOnlyAppendsToTheRecord : Prop :=
  ∀ s t : State, step s = .next t →
    (s.calls = [] → t = s) ∧
    (∀ c rest, s.calls = c :: rest → ∃ events placed,
      t.trace = s.trace ++ events ∧ CallEvents s.driver.hwPin c events ∧
      t.calls = placed ++ rest ∧ CallPlaces s.cfg c placed)

/-- R40, R110, R112, R113: a cache entry changes only to a value that is forwarded as a WRITE frame in the
caller's very next call, or to the payload of the reply of a read-back. -/
def Obligations.CacheChangesOnlyByWriteThroughOrReadBack : Prop :=
  ∀ (s t : State) (b : Nat), step s = .next t → t.cache.read b ≠ s.cache.read b →
    ∃ (a : Byte) (v : Word), b = a.toNat ∧ t.cache.read b = some v ∧
      (t.calls.head? = some (exchangeCall (encFrame a 1 v)) ∨
       s.calls.head? = some (.proc (.bankStore a)) ∧ v = framePayload s.inp.rx)

/-- R13, R17, R18, R40: no instruction of the table changes the cache, the Driver, a launch argument, the
caller's program, or any operand port but `rx`; an operation of the block changes nothing but the
selection and the outputs. -/
def Obligations.InstructionsKeepCacheDriverProgramAndOperands : Prop :=
  ∀ (i : Instr) (s t : State), exec i s = .next t →
    t.cache = s.cache ∧ t.driver = s.driver ∧ t.calls = s.calls ∧ t.ret = s.ret ∧
    t.irqSeen = s.irqSeen ∧ SameLaunch s t ∧ { t.inp with rx := s.inp.rx } = s.inp ∧
    (blockOp i = true → t = { s with op := t.op, out := t.out })

/-- R94, R180, U9: nothing raises an exception, and the only way to be stuck is a bus that never completes. -/
def Obligations.OnlyAHangingBusLeavesTheMachineStuck : Prop :=
  ∀ s : State, (s.bus ≠ .hangs → notStuck (step s) = true) ∧
    (∀ f, step s = .fault f → s.bus = .hangs ∧ s.variant = .spi)

/-- R22, R24, R25, R200: at reset the outputs are the function of the inputs, both maps are canonical, the
enable record is {false, false}, and every entry of the cache has no value, so GET_STORED refuses. -/
def Obligations.ResetLeavesTheSpecifiedState : Prop :=
  Settled State.reset ∧ MapsWf State.reset ∧ StatusCurrent State.reset ∧
  State.reset.driver.hwEnabled = false ∧ State.reset.driver.swEnabled = false ∧
  (∀ a : Byte, State.reset.cache.read a.toNat = none ∧
    getStored a State.reset = .refused .cacheEntryUnset)

/-- The reset values the model chose or took from the family, which no rule of the spec states: the default
parameters (assumption log 2), which are valid and name four different registers (log 13), ENC selected
and zeros on the operand ports (log 4), the SPI variant (log 6) on a working bus (log 12), no pin
(log 10), no bank bound (log 11), and no call waiting, so that the first step changes nothing
(log 7). -/
def Obligations.ResetValuesTheModelChose : Prop :=
  State.reset.cfg = Params.defaults ∧ State.reset.cfg.Valid ∧ State.reset.cfg.AddressesDistinct ∧
  BusReady State.reset ∧ State.reset.op = 0 ∧ State.reset.calls = [] ∧
  State.reset.inp = ⟨0, 0, 0, ⟨0, 0, 0, 0, 0⟩, 0, 0⟩ ∧ State.reset.driver.hwPin = none ∧
  State.reset.driver.bound = false ∧
  step State.reset = .next State.reset

/-! ### The Transport -/

/-- R92: WRITE_REG is one ENC with flag 1 and one exchange, on a malfunctioning bus too (R94). On a reliable
one the peer's register `a mod 128` receives the value; what R97 leaves open of that stays open at the
chip, and the reference peer holds the value (R98; assumption log 27). -/
def Obligations.WriteRegIsOneExchange : Prop :=
  ∀ (s : State) (a : Byte) (v : Word) (rest : List Call), BusCompletes s →
    s.calls = .proc (.writeReg a v) :: rest → ∃ t rx,
      runSteps 2 s = .next t ∧ t.calls = rest ∧
      t.trace = s.trace ++ exchangeEvents (encFrame a 1 v) rx ∧ t.lastStatus = rx.b0 ∧
      (s.bus = .reliable → t.peer.received = some (a.toNat % 128, v) ∧
        (s.peer.kind = .reference → t.peer.regs.read (a.toNat % 128) = some v)) ∧
      t.cache = s.cache ∧ t.ret = s.ret ∧ SameButWriteThrough s t

/-- R93: READ_REG issues exactly two identical exchanges, whatever the register, and returns the payload of
the second; `last_status` is the second reply's. On a malfunctioning bus it does the same with whatever
came in (R94); on a reliable one the value is the content sampled of register `a` (R97), and "the peer's
pending reply after READ_REG is again register `a`", which R93 marks as derived from R97. The field
`sampled` is the model's own record (assumption log 8). -/
def Obligations.ReadRegIsTwoIdenticalExchanges : Prop :=
  ∀ (s : State) (a : Byte) (rest : List Call), BusCompletes s →
    s.calls = .proc (.readReg a) :: rest → ∃ t first second v,
      runSteps 4 s = .next t ∧ t.calls = rest ∧
      t.trace = s.trace ++ exchangeEvents (encFrame a 0 0) first ++
        exchangeEvents (encFrame a 0 0) second ∧
      t.ret = some v ∧ v = framePayload second ∧ t.lastStatus = second.b0 ∧
      t.cache = s.cache ∧
      (s.bus = .reliable → t.peer.sampled = some (a.toNat % 128, t.peer.pend) ∧
        ∃ u, runSteps 2 s = .next u ∧ u.peer.sampled = some (a.toNat % 128, v)) ∧
      SameButWriteThrough s { t with ret := s.ret }

/-- R59, R99, D14: every transport procedure, and every bank procedure that uses the transport, is refused
on the UART variant, with no bus activity, and so are the three frames, whose format is the SPI
variant's only. That a reply run by itself is refused with them is the model's choice (assumption
log 21). -/
def Obligations.UartVariantIsRefused : Prop :=
  ∀ (s : State) (a : Byte) (v : Word) (tx : Frame) (b : BitVec 7) (st : Byte) (rest : List Call),
    s.variant = .uart →
    exec (.write b v) s = .refused .uartNotImplemented ∧
    exec (.read b v) s = .refused .uartNotImplemented ∧
    exec (.reply st v) s = .refused .uartNotImplemented ∧
    (s.calls = .proc (.xchg tx) :: rest → step s = .refused .uartNotImplemented) ∧
    (s.calls = .proc (.writeReg a v) :: rest → step s = .refused .uartNotImplemented) ∧
    (s.calls = .proc (.readReg a) :: rest → step s = .refused .uartNotImplemented) ∧
    (s.calls = .proc (.bankWrite a v) :: rest → step s = .refused .uartNotImplemented) ∧
    (s.calls = .proc (.bankRead a) :: rest → step s = .refused .uartNotImplemented)

/-! ### The Register Bank -/

/-- R111, R115: GET_STORED returns the cached value, changes nothing else and never touches the bus; a
never-set entry is refused. -/
def Obligations.GetStoredReturnsTheCachedValue : Prop :=
  ∀ (s : State) (a : Byte) (rest : List Call), s.calls = .proc (.getStored a) :: rest →
    (∀ v, s.cache.read a.toNat = some v →
      step s = .next { s with calls := rest, ret := some v }) ∧
    (s.cache.read a.toNat = none → step s = .refused .cacheEntryUnset)

/-- R110: BANK_WRITE stores the value the caller passed in the cache and forwards the write in one exchange,
also on a malfunctioning bus, where nothing reports that the write failed; on a reliable bus the peer's
register receives the value, which the reference peer then holds (assumption log 27). -/
def Obligations.BankWriteIsWriteThrough : Prop :=
  ∀ (s : State) (a : Byte) (v : Word) (rest : List Call), s.variant = .spi →
    (s.bus = .reliable ∨ s.bus = .garbage) →
    s.calls = .proc (.bankWrite a v) :: rest → ∃ t,
      runSteps 2 s = .next t ∧ t.calls = rest ∧ SameButWriteThrough s t ∧
      t.cache.read a.toNat = some v ∧
      (∀ b, b ≠ a.toNat → t.cache.read b = s.cache.read b) ∧
      (∃ rx, t.trace = s.trace ++ exchangeEvents (encFrame a 1 v) rx) ∧
      (s.bus = .reliable → WrittenThrough s t a v)

/-- R112, R113: BANK_READ reads the register and stores the value it returns; no other entry changes. On a
malfunctioning bus it stores whatever came in (R94). -/
def Obligations.BankReadStoresWhatItReads : Prop :=
  ∀ (s : State) (a : Byte) (rest : List Call), BusCompletes s →
    s.calls = .proc (.bankRead a) :: rest → ∃ t first second v,
      runSteps 5 s = .next t ∧ t.calls = rest ∧
      t.trace = s.trace ++ exchangeEvents (encFrame a 0 0) first ++
        exchangeEvents (encFrame a 0 0) second ∧
      v = framePayload second ∧ t.ret = some v ∧ t.cache.read a.toNat = some v ∧
      (∀ b, b ≠ a.toNat → t.cache.read b = s.cache.read b)

/-! ### The Driver -/

/-- R150: an INSERT is read back by EXTRACT modulo the field's width and leaves a disjoint field alone. -/
def Obligations.InsertedFieldsReadBackAndSpareSiblings : Prop :=
  ∀ (r c : Word) (f : FieldRange), f.Inside →
    (extractField (insertField r f c) f).toNat = c.toNat % 2 ^ f.width ∧
    ∀ g : FieldRange, g.Inside → f.Disjoint g →
      extractField (insertField r f c) g = extractField r g

/-- R150, R115: RMW inserts the fields, first pair first, into the stored value and makes one bus write,
whatever the number of fields; an entry never set is refused. -/
def Obligations.RmwMakesOneBusWrite : Prop :=
  ∀ (s : State) (a : Byte) (fields : List (FieldRange × Word)) (rest : List Call), BusReady s →
    s.calls = .proc (.rmw a fields) :: rest →
    (∀ r, s.cache.read a.toNat = some r → ∃ t,
      runSteps 2 s = .next t ∧ t.calls = rest ∧ SameButWriteThrough s t ∧
      WrittenThrough s t a (fields.foldl (fun acc fc => insertField acc fc.1 fc.2) r)) ∧
    (s.cache.read a.toNat = none → step s = .refused .cacheEntryUnset)

/-- R151, R152: a configured pin is driven low by `hardwareEnable` and high by `hardwareDisable` and the
record follows; without a pin enabling only sets the record and disabling does nothing. No frame is
sent. -/
def Obligations.HardwareStageDrivesThePin : Prop :=
  ∀ (s : State) (rest : List Call),
    (s.calls = .proc .hardwareEnable :: rest →
      (∀ pin, s.driver.hwPin = some pin → step s = .next
        { s with calls := rest, trace := s.trace ++ [.pinWrite pin .low],
                 driver := { s.driver with hwEnabled := true, pinLevel := .low } }) ∧
      (s.driver.hwPin = none → step s = .next
        { s with calls := rest, driver := { s.driver with hwEnabled := true } })) ∧
    (s.calls = .proc .hardwareDisable :: rest →
      (∀ pin, s.driver.hwPin = some pin → step s = .next
        { s with calls := rest, trace := s.trace ++ [.pinWrite pin .high],
                 driver := { s.driver with hwEnabled := false, pinLevel := .high } }) ∧
      (s.driver.hwPin = none → step s = .next { s with calls := rest }))

/-- R153, R154: the software stage is one RMW of the off-time field, to the enabled default or to the
disabling sentinel, and the record follows; the other bits of the register are preserved. -/
def Obligations.SoftwareStageWritesTheOffTime : Prop :=
  ∀ (s : State) (r : Word) (rest : List Call), DriverReady s →
    s.cache.read s.cfg.aChopconf.toNat = some r →
    (s.calls = .proc .softwareEnable :: rest → ∃ t v, runSteps 2 s = .next t ∧ t.calls = rest ∧
      WrittenThrough s t s.cfg.aChopconf v ∧ extractField v s.cfg.fToff = s.cfg.toffEnable ∧
      (∀ g : FieldRange, g.Inside → s.cfg.fToff.Disjoint g → extractField v g = extractField r g) ∧
      t.driver = { s.driver with swEnabled := true }) ∧
    (s.calls = .proc .softwareDisable :: rest → ∃ t v, runSteps 2 s = .next t ∧ t.calls = rest ∧
      WrittenThrough s t s.cfg.aChopconf v ∧ extractField v s.cfg.fToff = s.cfg.toffDisable ∧
      (∀ g : FieldRange, g.Inside → s.cfg.fToff.Disjoint g → extractField v g = extractField r g) ∧
      t.driver = { s.driver with swEnabled := false })

/-- R155, R156, R165: after `enable` the effective enable is true; after `disable` it is false, the
off-time field holds the sentinel, every other bit of the register is kept, a configured pin is high,
and a second `disable` changes neither the cache nor the Driver. -/
def Obligations.EnableArmsAndDisableDisarms : Prop :=
  ∀ (s : State) (r : Word) (rest : List Call), DriverReady s →
    s.cache.read s.cfg.aChopconf.toNat = some r →
    s.calls = .proc .enable :: .proc .disable :: .proc .disable :: rest → ∃ t u v w,
      runSteps 2 s = .next t ∧ effectiveEnable t = some true ∧ t.driver.hwEnabled = true ∧
      t.driver.swEnabled = true ∧
      runSteps 2 t = .next u ∧ effectiveEnable u = some false ∧ u.driver.swEnabled = false ∧
      u.cache.read s.cfg.aChopconf.toNat = some w ∧
      extractField w s.cfg.fToff = s.cfg.toffDisable ∧
      (∀ g : FieldRange, g.Inside → s.cfg.fToff.Disjoint g → extractField w g = extractField r g) ∧
      (∀ pin, s.driver.hwPin = some pin → u.driver.pinLevel = .high ∧ u.driver.hwEnabled = false) ∧
      runSteps 2 u = .next v ∧ v.driver = u.driver ∧ v.cache = u.cache ∧ v.calls = rest

/-- R158: `minimizeMotorCurrent` writes the global-scale register whole with `P2GS(0) = GS_THRESHOLD`, then
both current fields with `P2CS(0) = CS_MIN` in one write; the hold-delay field, and every other bit of
`IHOLD_IRUN` outside the two fields, is preserved. Its premises are those of the Driver (R201, R202, R5,
R6), a value in the cache entry of `IHOLD_IRUN` (R203), and four different registers (assumption
log 13). -/
def Obligations.MinimizeMotorCurrentWritesTwoRegisters : Prop :=
  ∀ (s : State) (r : Word) (rest : List Call), DriverReady s → s.cfg.AddressesDistinct →
    s.cache.read s.cfg.aIholdIrun.toNat = some r →
    s.calls = .proc .minimizeMotorCurrent :: rest → ∃ t g v rx ry,
      runSteps 4 s = .next t ∧ t.calls = rest ∧
      t.trace = s.trace ++ exchangeEvents (encFrame s.cfg.aGlobalScaler 1 g) rx ++
        exchangeEvents (encFrame s.cfg.aIholdIrun 1 v) ry ∧
      t.cache.read s.cfg.aGlobalScaler.toNat = some g ∧
      t.cache.read s.cfg.aIholdIrun.toNat = some v ∧
      g.toNat = s.cfg.gsThreshold * 2 ^ s.cfg.fGs.lo ∧
      (extractField v s.cfg.fIrun).toNat = s.cfg.csMin ∧
      (extractField v s.cfg.fIhold).toNat = s.cfg.csMin ∧
      extractField v s.cfg.fIholdDelay = extractField r s.cfg.fIholdDelay ∧
      (∀ f : FieldRange, f.Inside → s.cfg.fIrun.Disjoint f → s.cfg.fIhold.Disjoint f →
        extractField v f = extractField r f)

/-- R157: `setup`, whatever the prior enable record, pin level and bank binding and whatever the cached
values, binds the bank and makes four bus writes, in the order chopper-config, global scale,
`IHOLD_IRUN`, PWM-config, and no read. Its premises are a reliable bus (R201), valid parameters (R5,
R6), four different registers (assumption log 13), and a value in each of the three cache entries that
R203 names. Without a pin the record of the hardware component stays as it was, which is the model's
reading (assumption log 26). It leaves the off-time at the sentinel, the scaler's field and both current fields
at their minimum, both automatic-control flags clear, and the drive disabled. In the chopper-config,
`IHOLD_IRUN` and PWM-config registers every field apart from those set keeps what the cache held (R203). -/
def Obligations.SetupLeavesTheDriveDisabledAtMinimumCurrent : Prop :=
  ∀ (s : State) (rc ri rp : Word) (rest : List Call), BusReady s → s.cfg.Valid →
    s.cfg.AddressesDistinct →
    s.cache.read s.cfg.aChopconf.toNat = some rc → s.cache.read s.cfg.aIholdIrun.toNat = some ri →
    s.cache.read s.cfg.aPwmconf.toNat = some rp →
    s.calls = .proc .setup :: rest → ∃ t c g i p x1 x2 x3 x4 pins,
      runSteps 9 s = .next t ∧ t.calls = rest ∧
      t.trace = s.trace ++ pins ++ exchangeEvents (encFrame s.cfg.aChopconf 1 c) x1 ++
        exchangeEvents (encFrame s.cfg.aGlobalScaler 1 g) x2 ++
        exchangeEvents (encFrame s.cfg.aIholdIrun 1 i) x3 ++
        exchangeEvents (encFrame s.cfg.aPwmconf 1 p) x4 ∧
      (∀ pin, s.driver.hwPin = some pin → pins = [.pinWrite pin .high] ∧
        t.driver.pinLevel = .high ∧ t.driver.hwEnabled = false) ∧
      (s.driver.hwPin = none → pins = [] ∧ t.driver.hwEnabled = s.driver.hwEnabled) ∧
      t.driver.bound = true ∧ t.driver.swEnabled = false ∧ effectiveEnable t = some false ∧
      t.cache.read s.cfg.aChopconf.toNat = some c ∧
      extractField c s.cfg.fToff = s.cfg.toffDisable ∧
      (∀ f : FieldRange, f.Inside → s.cfg.fToff.Disjoint f → extractField c f = extractField rc f) ∧
      t.cache.read s.cfg.aGlobalScaler.toNat = some g ∧
      (extractField g s.cfg.fGs).toNat = s.cfg.gsThreshold ∧
      t.cache.read s.cfg.aIholdIrun.toNat = some i ∧
      (extractField i s.cfg.fIrun).toNat = s.cfg.csMin ∧
      (extractField i s.cfg.fIhold).toNat = s.cfg.csMin ∧
      extractField i s.cfg.fIholdDelay = extractField ri s.cfg.fIholdDelay ∧
      (∀ f : FieldRange, f.Inside → s.cfg.fIrun.Disjoint f → s.cfg.fIhold.Disjoint f →
        extractField i f = extractField ri f) ∧
      t.cache.read s.cfg.aPwmconf.toNat = some p ∧
      extractField p s.cfg.fAutoscale = 0 ∧ extractField p s.cfg.fAutograd = 0 ∧
      (∀ f : FieldRange, f.Inside → s.cfg.fAutoscale.Disjoint f → s.cfg.fAutograd.Disjoint f →
        extractField p f = extractField rp f)

/-- R159, R160, R161: each of the three setters writes its own field of `IHOLD_IRUN` with the mapper's code,
in one bus write, and preserves every bit outside it (R150), the two sibling fields among them. -/
def Obligations.CurrentSettersWriteOneFieldEach : Prop :=
  ∀ (s : State) (p : Byte) (r : Word) (rest : List Call), DriverReady s →
    s.cache.read s.cfg.aIholdIrun.toNat = some r →
    (s.calls = .proc (.setRunCurrent p) :: rest → ∃ t v, runSteps 2 s = .next t ∧ t.calls = rest ∧
      SameButWriteThrough s t ∧ WrittenThrough s t s.cfg.aIholdIrun v ∧
      (extractField v s.cfg.fIrun).toNat = (p2cs s.cfg p).toNat ∧
      (∀ g : FieldRange, g.Inside → s.cfg.fIrun.Disjoint g → extractField v g = extractField r g)) ∧
    (s.calls = .proc (.setHoldCurrent p) :: rest → ∃ t v, runSteps 2 s = .next t ∧ t.calls = rest ∧
      SameButWriteThrough s t ∧ WrittenThrough s t s.cfg.aIholdIrun v ∧
      (extractField v s.cfg.fIhold).toNat = (p2cs s.cfg p).toNat ∧
      (∀ g : FieldRange, g.Inside → s.cfg.fIhold.Disjoint g → extractField v g = extractField r g)) ∧
    (s.calls = .proc (.setHoldDelay p) :: rest → ∃ t v, runSteps 2 s = .next t ∧ t.calls = rest ∧
      SameButWriteThrough s t ∧ WrittenThrough s t s.cfg.aIholdIrun v ∧
      (extractField v s.cfg.fIholdDelay).toNat = (p2hd s.cfg p).toNat ∧
      (∀ g : FieldRange, g.Inside → s.cfg.fIholdDelay.Disjoint g →
        extractField v g = extractField r g))

/-- R162: `setAllCurrentValues` writes the three fields in one bus write and preserves every bit outside
them. -/
def Obligations.SetAllCurrentValuesIsOneWrite : Prop :=
  ∀ (s : State) (run hold delay : Byte) (r : Word) (rest : List Call), DriverReady s →
    s.cache.read s.cfg.aIholdIrun.toNat = some r →
    s.calls = .proc (.setAllCurrentValues run hold delay) :: rest → ∃ t v,
      runSteps 2 s = .next t ∧ t.calls = rest ∧ SameButWriteThrough s t ∧
      WrittenThrough s t s.cfg.aIholdIrun v ∧
      (extractField v s.cfg.fIrun).toNat = (p2cs s.cfg run).toNat ∧
      (extractField v s.cfg.fIhold).toNat = (p2cs s.cfg hold).toNat ∧
      (extractField v s.cfg.fIholdDelay).toNat = (p2hd s.cfg delay).toNat ∧
      (∀ g : FieldRange, g.Inside → s.cfg.fIrun.Disjoint g → s.cfg.fIhold.Disjoint g →
        s.cfg.fIholdDelay.Disjoint g → extractField v g = extractField r g)

/-- R163: setting the global scaler writes its register whole, the code in its field and every other bit
zero; from 100 percent on the whole word is 0, the full-scale encoding. -/
def Obligations.GlobalScalerIsWrittenWhole : Prop :=
  ∀ (s : State) (p : Byte) (rest : List Call), DriverReady s →
    s.calls = .proc (.setGlobalScaler p) :: rest → ∃ t v,
      runSteps 2 s = .next t ∧ t.calls = rest ∧ SameButWriteThrough s t ∧
      WrittenThrough s t s.cfg.aGlobalScaler v ∧
      v.toNat = (p2gs s.cfg p).toNat * 2 ^ s.cfg.fGs.lo ∧ (100 ≤ p.toNat → v = 0)

/-- R164: automatic current control sets or clears both flags together in one write of the PWM-config
register and preserves its other bits. -/
def Obligations.AutomaticControlTogglesBothFlags : Prop :=
  ∀ (s : State) (r : Word) (rest : List Call), DriverReady s →
    s.cache.read s.cfg.aPwmconf.toNat = some r →
    (s.calls = .proc .enableAutomaticCurrentControl :: rest → ∃ t v, runSteps 2 s = .next t ∧
      t.calls = rest ∧ SameButWriteThrough s t ∧ WrittenThrough s t s.cfg.aPwmconf v ∧
      extractField v s.cfg.fAutoscale = 1 ∧ extractField v s.cfg.fAutograd = 1 ∧
      (∀ g : FieldRange, g.Inside → s.cfg.fAutoscale.Disjoint g → s.cfg.fAutograd.Disjoint g →
        extractField v g = extractField r g)) ∧
    (s.calls = .proc .disableAutomaticCurrentControl :: rest → ∃ t v, runSteps 2 s = .next t ∧
      t.calls = rest ∧ SameButWriteThrough s t ∧ WrittenThrough s t s.cfg.aPwmconf v ∧
      extractField v s.cfg.fAutoscale = 0 ∧ extractField v s.cfg.fAutograd = 0 ∧
      (∀ g : FieldRange, g.Inside → s.cfg.fAutoscale.Disjoint g → s.cfg.fAutograd.Disjoint g →
        extractField v g = extractField r g))

/-- R166: no setter's result depends on anything but its argument, the parameters and the cache: from two
states that agree on these, whatever else differs, the caches stay equal and the same frame is sent. -/
def Obligations.SettersDependOnlyOnArgumentAndCache : Prop :=
  ∀ (s t : State) (p : Proc),
    (∃ x y z, p = .setRunCurrent x ∨ p = .setHoldCurrent x ∨ p = .setHoldDelay x ∨
      p = .setGlobalScaler x ∨ p = .setAllCurrentValues x y z) →
    s.cfg = t.cfg → s.cache = t.cache → s.driver.bound = true → t.driver.bound = true →
    s.variant = .spi → t.variant = .spi →
    (∃ s1 t1, runProc p s = .next s1 ∧ runProc p t = .next t1 ∧ s1.cache = t1.cache ∧
      s1.calls.head? = t1.calls.head? ∧ s1.out = t1.out) ∨
    (runProc p s = .refused .cacheEntryUnset ∧ runProc p t = .refused .cacheEntryUnset)

/-- R202 requires `setup` first and gives no outcome otherwise. The model's choice (assumption log 11): before
`setup` has bound a bank, every Driver procedure that works through it is refused. -/
def Obligations.DriverIsRefusedBeforeSetup : Prop :=
  ∀ (s : State) (p run hold delay : Byte), s.driver.bound = false →
    runProc .softwareEnable s = .refused .bankNotBound ∧
    runProc .softwareDisable s = .refused .bankNotBound ∧
    runProc .enable s = .refused .bankNotBound ∧ runProc .disable s = .refused .bankNotBound ∧
    runProc .minimizeMotorCurrent s = .refused .bankNotBound ∧
    runProc (.setRunCurrent p) s = .refused .bankNotBound ∧
    runProc (.setHoldCurrent p) s = .refused .bankNotBound ∧
    runProc (.setHoldDelay p) s = .refused .bankNotBound ∧
    runProc (.setAllCurrentValues run hold delay) s = .refused .bankNotBound ∧
    runProc (.setGlobalScaler p) s = .refused .bankNotBound ∧
    runProc .enableAutomaticCurrentControl s = .refused .bankNotBound ∧
    runProc .disableAutomaticCurrentControl s = .refused .bankNotBound
end

