-- ==== Sys2Proof/Laws/Codec.lean ====
section
/-! SUPPORT. The laws of the frame layouts: the fields of an assembled frame, and a frame from its bytes. -/

namespace Sys2Proof

/-- Reassembling the four payload bytes gives the payload. -/
theorem payload_bytes (d : Word) :
    (d.extractLsb' 24 8 ++ d.extractLsb' 16 8 ++ d.extractLsb' 8 8 ++ d.extractLsb' 0 8 : Word) = d := by
  apply BitVec.eq_of_getLsbD_eq
  intro i hi
  simp only [BitVec.getLsbD_append, BitVec.getLsbD_extractLsb']
  grind

@[simp] theorem framePayload_mosiFrame (a : BitVec 7) (w : BitVec 1) (d : Word) :
    framePayload (mosiFrame a w d) = d := payload_bytes d

@[simp] theorem framePayload_misoFrame (st : Byte) (d : Word) :
    framePayload (misoFrame st d) = d := payload_bytes d

@[simp] theorem misoFrame_b0 (st : Byte) (d : Word) : (misoFrame st d).b0 = st := rfl

@[simp] theorem frameAddr_mosiFrame (a : BitVec 7) (w : BitVec 1) (d : Word) :
    frameAddr (mosiFrame a w d) = a := by
  apply BitVec.eq_of_getLsbD_eq
  intro i hi
  simp only [frameAddr, mosiFrame, BitVec.getLsbD_append, BitVec.getLsbD_extractLsb']
  grind

@[simp] theorem frameFlag_mosiFrame (a : BitVec 7) (w : BitVec 1) (d : Word) :
    frameFlag (mosiFrame a w d) = w := by
  apply BitVec.eq_of_getLsbD_eq
  intro i hi
  simp only [frameFlag, mosiFrame, BitVec.getLsbD_append, BitVec.getLsbD_extractLsb']
  grind

@[simp] theorem frameOfBytes_frameBytes (f : Frame) : frameOfBytes (frameBytes f) = some f := rfl

@[simp] theorem decStatus_misoFrame (st : Byte) (d : Word) :
    Machine.decStatus (misoFrame st d) = st := rfl

@[simp] theorem decPayload_misoFrame (st : Byte) (d : Word) :
    Machine.decPayload (misoFrame st d) = d := payload_bytes d

/-- Two frames are equal when their five bytes are. -/
theorem frame_ext {f g : Frame} (h0 : f.b0 = g.b0) (h1 : f.b1 = g.b1) (h2 : f.b2 = g.b2)
    (h3 : f.b3 = g.b3) (h4 : f.b4 = g.b4) : f = g := by
  cases f; cases g; simp_all

/-- An outbound frame is assembled from its own fields. -/
theorem mosiFrame_fields (f : Frame) :
    mosiFrame (frameAddr f) (frameFlag f) (framePayload f) = f := by
  apply frame_ext <;> apply BitVec.eq_of_getLsbD_eq <;> intro i hi <;>
    simp only [mosiFrame, frameAddr, frameFlag, framePayload, BitVec.getLsbD_append,
      BitVec.getLsbD_extractLsb'] <;> grind

/-- An inbound frame is assembled from its status byte and its payload. -/
theorem misoFrame_fields (f : Frame) : misoFrame f.b0 (framePayload f) = f := by
  apply frame_ext <;> apply BitVec.eq_of_getLsbD_eq <;> intro i hi <;>
    simp only [misoFrame, framePayload, BitVec.getLsbD_append, BitVec.getLsbD_extractLsb'] <;> grind

/-- The decoder reads an assembled outbound frame as the datagram its flag says. -/
theorem decode_mosiFrame (a : BitVec 7) (w : BitVec 1) (d : Word) :
    decode (.mosi (frameBytes (mosiFrame a w d))) =
      .ok (if w = 1 then .write a d else .read a d) := by
  simp only [decode, frameOfBytes_frameBytes, decodeMosi, frameFlag_mosiFrame,
    frameAddr_mosiFrame, framePayload_mosiFrame]

end Sys2Proof
end

