-- ==== Sys2Proof/Laws/Memory.lean ====
section
/-! SUPPORT. The laws of register maps: a read after a write, and the canonical form. -/

namespace Sys2Proof.Machine

@[simp] theorem memory_read_nil (a : Nat) : Memory.read [] a = none := rfl

/-- A register reads as what was last written to it. -/
@[simp] theorem memory_read_write_same (m : Memory) (a : Nat) (v : Word) :
    (m.write a v).read a = some v := by
  induction m with
  | nil => simp [Memory.write, Memory.read]
  | cons e rest ih =>
    obtain ⟨b, w⟩ := e
    simp only [Memory.write]
    split
    · simp [Memory.read]
    · split
      · simp [Memory.read]
      · simp [Memory.read, ih, Ne.symm ‹a ≠ b›]

/-- A write leaves every other register alone. -/
theorem memory_read_write_other (m : Memory) (a b : Nat) (v : Word) (h : b ≠ a) :
    (m.write a v).read b = m.read b := by
  induction m with
  | nil => simp [Memory.write, Memory.read, Memory.unlisted, Ne.symm h]
  | cons e rest ih =>
    obtain ⟨c, w⟩ := e
    simp only [Memory.write]
    split
    · simp [Memory.read, Ne.symm h]
    · split
      · next hc => subst hc; simp [Memory.read, Ne.symm h]
      · simp [Memory.read, ih]

/-- Writing the same register twice leaves the second value. -/
theorem memory_write_write (m : Memory) (a : Nat) (v w : Word) :
    (m.write a v).write a w = m.write a w := by
  induction m with
  | nil => simp [Memory.write]
  | cons e rest ih =>
    obtain ⟨b, u⟩ := e
    by_cases h1 : a < b
    · simp [Memory.write, h1]
    · by_cases h2 : a = b
      · subst h2; simp [Memory.write]
      · simp [Memory.write, h1, h2, ih]

/-- A write keeps the canonical form of the entries from `lo` on. -/
theorem memory_wfFrom_write (size lo : Nat) (m : Memory) (a : Nat) (v : Word)
    (h : Memory.wfFrom lo size m = true) (hlo : lo ≤ a) (ha : a < size) :
    Memory.wfFrom lo size (m.write a v) = true := by
  induction m generalizing lo with
  | nil => simp [Memory.write, Memory.wfFrom, hlo, ha]
  | cons e rest ih =>
    obtain ⟨b, w⟩ := e
    simp only [Memory.wfFrom, Bool.and_eq_true, decide_eq_true_eq] at h
    obtain ⟨hb, hbs, hr⟩ := h
    simp only [Memory.write]
    split
    · simp [Memory.wfFrom, hlo, ha, hbs, hr, Nat.succ_le_of_lt ‹a < b›]
    · split
      · next hab => subst hab; simp [Memory.wfFrom, hlo, ha, hr]
      · have := ih (b + 1) hr (by omega)
        simp [Memory.wfFrom, hb, hbs, this]

/-- A write to a register of the space keeps the canonical form. -/
theorem memory_wf_write (size : Nat) (m : Memory) (a : Nat) (v : Word)
    (h : m.wf size = true) (ha : a < size) : (m.write a v).wf size = true :=
  memory_wfFrom_write size 0 m a v h (Nat.zero_le a) ha

/-- At the reference peer the register of a WRITE datagram holds its payload. -/
theorem regsAfterWrite_read_same {p : Peer} (h : p.kind = .reference) (a : BitVec 7) (d : Word) :
    (regsAfterWrite p a d).read a.toNat = some d := by
  simp [regsAfterWrite, h]

/-- At the reference peer a WRITE datagram leaves every other register alone. -/
theorem regsAfterWrite_read_other {p : Peer} (h : p.kind = .reference) (a : BitVec 7) (d : Word)
    (b : Nat) (hb : b ≠ a.toNat) : (regsAfterWrite p a d).read b = p.regs.read b := by
  simp [regsAfterWrite, h, memory_read_write_other _ _ _ _ hb]

/-- At the chip a WRITE datagram leaves no register's content known. -/
theorem regsAfterWrite_chip {p : Peer} (h : p.kind = .chip) (a : BitVec 7) (d : Word) :
    regsAfterWrite p a d = [] := by
  simp [regsAfterWrite, h]

/-- At the chip a READ datagram leaves no register's content known. -/
theorem regsAfterRead_chip {p : Peer} (h : p.kind = .chip) (a : BitVec 7) (v : Word) :
    regsAfterRead p a v = [] := by
  simp [regsAfterRead, h]

/-- A WRITE datagram keeps the peer's registers canonical. -/
theorem regsAfterWrite_wf {p : Peer} (h : p.regs.wf 128 = true) (a : BitVec 7) (d : Word) :
    (regsAfterWrite p a d).wf 128 = true := by
  unfold regsAfterWrite
  split
  · rfl
  · exact memory_wf_write 128 p.regs a.toNat d h a.isLt

/-- A READ datagram keeps the peer's registers canonical. -/
theorem regsAfterRead_wf {p : Peer} (h : p.regs.wf 128 = true) (a : BitVec 7) (v : Word) :
    (regsAfterRead p a v).wf 128 = true := by
  unfold regsAfterRead
  split
  · rfl
  · exact memory_wf_write 128 p.regs a.toNat v h a.isLt

@[simp] theorem memory_wf_nil (size : Nat) : Memory.wf size [] = true := rfl

end Sys2Proof.Machine
end

