-- ==== Sys2Proof/Laws/Operands.lean ====
section
/-! SUPPORT. The bits of a field mask, of INSERT and of EXTRACT, and the bounds of the linear map. -/

namespace Sys2Proof.Machine

/-- A field's mask has exactly the field's bits set. -/
theorem getLsbD_fieldMask (f : FieldRange) (h : f.Inside) (i : Nat) :
    (fieldMask f).getLsbD i = decide (f.lo ≤ i ∧ i ≤ f.hi) := by
  obtain ⟨h1, h2⟩ := h
  simp only [fieldMask, FieldRange.width, BitVec.getLsbD_ofNat, ← Nat.shiftLeft_eq,
    Nat.testBit_shiftLeft, Nat.testBit_two_pow_sub_one]
  grind

/-- INSERT replaces the field's bits and keeps the others. -/
theorem getLsbD_insertField (r : Word) (f : FieldRange) (c : Word) (h : f.Inside) (i : Nat) :
    (insertField r f c).getLsbD i =
      if f.lo ≤ i ∧ i ≤ f.hi then c.getLsbD (i - f.lo) else r.getLsbD i := by
  have h2 := h.2
  simp only [insertField, BitVec.getLsbD_or, BitVec.getLsbD_and, BitVec.getLsbD_not,
    BitVec.getLsbD_shiftLeft, getLsbD_fieldMask f h]
  grind

/-- EXTRACT reads the field's bits, with zeros above. -/
theorem getLsbD_extractField (r : Word) (f : FieldRange) (h : f.Inside) (i : Nat) :
    (extractField r f).getLsbD i = (decide (f.lo + i ≤ f.hi) && r.getLsbD (f.lo + i)) := by
  have h2 := h.2
  simp only [extractField, BitVec.getLsbD_ushiftRight, BitVec.getLsbD_and, getLsbD_fieldMask f h]
  grind

/-- The linear map stays between its output bounds. -/
theorem lmap_bounds {x inLo inHi outLo outHi : Nat} (h1 : x ≤ inHi) (h2 : inLo < inHi)
    (h3 : outLo ≤ outHi) :
    outLo ≤ lmap x inLo inHi outLo outHi ∧ lmap x inLo inHi outLo outHi ≤ outHi := by
  unfold lmap
  refine ⟨Nat.le_add_right _ _, ?_⟩
  have : (x - inLo) * (outHi - outLo) / (inHi - inLo) ≤ outHi - outLo := by
    apply Nat.div_le_of_le_mul
    exact Nat.mul_le_mul_right _ (by omega)
  omega

/-- The linear map is non-decreasing. -/
theorem lmap_mono {x y inLo inHi outLo outHi : Nat} (h : x ≤ y) :
    lmap x inLo inHi outLo outHi ≤ lmap y inLo inHi outLo outHi := by
  unfold lmap
  have : (x - inLo) * (outHi - outLo) ≤ (y - inLo) * (outHi - outLo) :=
    Nat.mul_le_mul_right _ (by omega)
  have := Nat.div_le_div_right (c := inHi - inLo) this
  omega

/-- CLAMP as a natural number. -/
@[simp] theorem clampPct_toNat (p : Byte) : (clampPct p).toNat = min p.toNat 100 := by
  simp only [clampPct, pctMin, pctMax, BitVec.toNat_ofNat]
  omega

end Sys2Proof.Machine
end

