-- ==== Sys2Proof/Laws/State.lean ====
section
/-! SUPPORT. For each update of the state, what every field is afterwards: one lemma per field per update. -/

namespace Sys2Proof.Machine

/-! ### selectOp -/

@[simp] theorem selectOp_cfg (op : BitVec 3) (out : Outputs) (s : State) :
    (selectOp op out s).cfg = s.cfg := rfl
@[simp] theorem selectOp_op (op : BitVec 3) (out : Outputs) (s : State) :
    (selectOp op out s).op = op := rfl
@[simp] theorem selectOp_inp (op : BitVec 3) (out : Outputs) (s : State) :
    (selectOp op out s).inp = s.inp := rfl
@[simp] theorem selectOp_out (op : BitVec 3) (out : Outputs) (s : State) :
    (selectOp op out s).out = out := rfl
@[simp] theorem selectOp_variant (op : BitVec 3) (out : Outputs) (s : State) :
    (selectOp op out s).variant = s.variant := rfl
@[simp] theorem selectOp_bus (op : BitVec 3) (out : Outputs) (s : State) :
    (selectOp op out s).bus = s.bus := rfl
@[simp] theorem selectOp_lastStatus (op : BitVec 3) (out : Outputs) (s : State) :
    (selectOp op out s).lastStatus = s.lastStatus := rfl
@[simp] theorem selectOp_cache (op : BitVec 3) (out : Outputs) (s : State) :
    (selectOp op out s).cache = s.cache := rfl
@[simp] theorem selectOp_driver (op : BitVec 3) (out : Outputs) (s : State) :
    (selectOp op out s).driver = s.driver := rfl
@[simp] theorem selectOp_peer (op : BitVec 3) (out : Outputs) (s : State) :
    (selectOp op out s).peer = s.peer := rfl
@[simp] theorem selectOp_calls (op : BitVec 3) (out : Outputs) (s : State) :
    (selectOp op out s).calls = s.calls := rfl
@[simp] theorem selectOp_trace (op : BitVec 3) (out : Outputs) (s : State) :
    (selectOp op out s).trace = s.trace := rfl
@[simp] theorem selectOp_ret (op : BitVec 3) (out : Outputs) (s : State) :
    (selectOp op out s).ret = s.ret := rfl
@[simp] theorem selectOp_irqSeen (op : BitVec 3) (out : Outputs) (s : State) :
    (selectOp op out s).irqSeen = s.irqSeen := rfl
@[simp] theorem selectOp_draws (op : BitVec 3) (out : Outputs) (s : State) :
    (selectOp op out s).draws = s.draws := rfl

/-! ### drivePorts -/

@[simp] theorem drivePorts_cfg (inp : Inputs) (s : State) :
    (drivePorts inp s).cfg = s.cfg := rfl
@[simp] theorem drivePorts_op (inp : Inputs) (s : State) :
    (drivePorts inp s).op = s.op := rfl
@[simp] theorem drivePorts_inp (inp : Inputs) (s : State) :
    (drivePorts inp s).inp = inp := rfl
@[simp] theorem drivePorts_out (inp : Inputs) (s : State) :
    (drivePorts inp s).out = blockOutputs s.cfg s.op inp := rfl
@[simp] theorem drivePorts_variant (inp : Inputs) (s : State) :
    (drivePorts inp s).variant = s.variant := rfl
@[simp] theorem drivePorts_bus (inp : Inputs) (s : State) :
    (drivePorts inp s).bus = s.bus := rfl
@[simp] theorem drivePorts_lastStatus (inp : Inputs) (s : State) :
    (drivePorts inp s).lastStatus = s.lastStatus := rfl
@[simp] theorem drivePorts_cache (inp : Inputs) (s : State) :
    (drivePorts inp s).cache = s.cache := rfl
@[simp] theorem drivePorts_driver (inp : Inputs) (s : State) :
    (drivePorts inp s).driver = s.driver := rfl
@[simp] theorem drivePorts_peer (inp : Inputs) (s : State) :
    (drivePorts inp s).peer = s.peer := rfl
@[simp] theorem drivePorts_calls (inp : Inputs) (s : State) :
    (drivePorts inp s).calls = s.calls := rfl
@[simp] theorem drivePorts_trace (inp : Inputs) (s : State) :
    (drivePorts inp s).trace = s.trace := rfl
@[simp] theorem drivePorts_ret (inp : Inputs) (s : State) :
    (drivePorts inp s).ret = s.ret := rfl
@[simp] theorem drivePorts_irqSeen (inp : Inputs) (s : State) :
    (drivePorts inp s).irqSeen = s.irqSeen := rfl
@[simp] theorem drivePorts_draws (inp : Inputs) (s : State) :
    (drivePorts inp s).draws = s.draws := rfl

/-! ### setCalls -/

@[simp] theorem setCalls_cfg (cs : List Call) (s : State) :
    (setCalls cs s).cfg = s.cfg := rfl
@[simp] theorem setCalls_op (cs : List Call) (s : State) :
    (setCalls cs s).op = s.op := rfl
@[simp] theorem setCalls_inp (cs : List Call) (s : State) :
    (setCalls cs s).inp = s.inp := rfl
@[simp] theorem setCalls_out (cs : List Call) (s : State) :
    (setCalls cs s).out = s.out := rfl
@[simp] theorem setCalls_variant (cs : List Call) (s : State) :
    (setCalls cs s).variant = s.variant := rfl
@[simp] theorem setCalls_bus (cs : List Call) (s : State) :
    (setCalls cs s).bus = s.bus := rfl
@[simp] theorem setCalls_lastStatus (cs : List Call) (s : State) :
    (setCalls cs s).lastStatus = s.lastStatus := rfl
@[simp] theorem setCalls_cache (cs : List Call) (s : State) :
    (setCalls cs s).cache = s.cache := rfl
@[simp] theorem setCalls_driver (cs : List Call) (s : State) :
    (setCalls cs s).driver = s.driver := rfl
@[simp] theorem setCalls_peer (cs : List Call) (s : State) :
    (setCalls cs s).peer = s.peer := rfl
@[simp] theorem setCalls_calls (cs : List Call) (s : State) :
    (setCalls cs s).calls = cs := rfl
@[simp] theorem setCalls_trace (cs : List Call) (s : State) :
    (setCalls cs s).trace = s.trace := rfl
@[simp] theorem setCalls_ret (cs : List Call) (s : State) :
    (setCalls cs s).ret = s.ret := rfl
@[simp] theorem setCalls_irqSeen (cs : List Call) (s : State) :
    (setCalls cs s).irqSeen = s.irqSeen := rfl
@[simp] theorem setCalls_draws (cs : List Call) (s : State) :
    (setCalls cs s).draws = s.draws := rfl

/-! ### pushCalls -/

@[simp] theorem pushCalls_cfg (cs : List Call) (s : State) :
    (pushCalls cs s).cfg = s.cfg := rfl
@[simp] theorem pushCalls_op (cs : List Call) (s : State) :
    (pushCalls cs s).op = s.op := rfl
@[simp] theorem pushCalls_inp (cs : List Call) (s : State) :
    (pushCalls cs s).inp = s.inp := rfl
@[simp] theorem pushCalls_out (cs : List Call) (s : State) :
    (pushCalls cs s).out = s.out := rfl
@[simp] theorem pushCalls_variant (cs : List Call) (s : State) :
    (pushCalls cs s).variant = s.variant := rfl
@[simp] theorem pushCalls_bus (cs : List Call) (s : State) :
    (pushCalls cs s).bus = s.bus := rfl
@[simp] theorem pushCalls_lastStatus (cs : List Call) (s : State) :
    (pushCalls cs s).lastStatus = s.lastStatus := rfl
@[simp] theorem pushCalls_cache (cs : List Call) (s : State) :
    (pushCalls cs s).cache = s.cache := rfl
@[simp] theorem pushCalls_driver (cs : List Call) (s : State) :
    (pushCalls cs s).driver = s.driver := rfl
@[simp] theorem pushCalls_peer (cs : List Call) (s : State) :
    (pushCalls cs s).peer = s.peer := rfl
@[simp] theorem pushCalls_calls (cs : List Call) (s : State) :
    (pushCalls cs s).calls = cs ++ s.calls := rfl
@[simp] theorem pushCalls_trace (cs : List Call) (s : State) :
    (pushCalls cs s).trace = s.trace := rfl
@[simp] theorem pushCalls_ret (cs : List Call) (s : State) :
    (pushCalls cs s).ret = s.ret := rfl
@[simp] theorem pushCalls_irqSeen (cs : List Call) (s : State) :
    (pushCalls cs s).irqSeen = s.irqSeen := rfl
@[simp] theorem pushCalls_draws (cs : List Call) (s : State) :
    (pushCalls cs s).draws = s.draws := rfl

/-! ### storeEntry -/

@[simp] theorem storeEntry_cfg (a : Byte) (v : Word) (s : State) :
    (storeEntry a v s).cfg = s.cfg := rfl
@[simp] theorem storeEntry_op (a : Byte) (v : Word) (s : State) :
    (storeEntry a v s).op = s.op := rfl
@[simp] theorem storeEntry_inp (a : Byte) (v : Word) (s : State) :
    (storeEntry a v s).inp = s.inp := rfl
@[simp] theorem storeEntry_out (a : Byte) (v : Word) (s : State) :
    (storeEntry a v s).out = s.out := rfl
@[simp] theorem storeEntry_variant (a : Byte) (v : Word) (s : State) :
    (storeEntry a v s).variant = s.variant := rfl
@[simp] theorem storeEntry_bus (a : Byte) (v : Word) (s : State) :
    (storeEntry a v s).bus = s.bus := rfl
@[simp] theorem storeEntry_lastStatus (a : Byte) (v : Word) (s : State) :
    (storeEntry a v s).lastStatus = s.lastStatus := rfl
@[simp] theorem storeEntry_cache (a : Byte) (v : Word) (s : State) :
    (storeEntry a v s).cache = s.cache.write a.toNat v := rfl
@[simp] theorem storeEntry_driver (a : Byte) (v : Word) (s : State) :
    (storeEntry a v s).driver = s.driver := rfl
@[simp] theorem storeEntry_peer (a : Byte) (v : Word) (s : State) :
    (storeEntry a v s).peer = s.peer := rfl
@[simp] theorem storeEntry_calls (a : Byte) (v : Word) (s : State) :
    (storeEntry a v s).calls = s.calls := rfl
@[simp] theorem storeEntry_trace (a : Byte) (v : Word) (s : State) :
    (storeEntry a v s).trace = s.trace := rfl
@[simp] theorem storeEntry_ret (a : Byte) (v : Word) (s : State) :
    (storeEntry a v s).ret = s.ret := rfl
@[simp] theorem storeEntry_irqSeen (a : Byte) (v : Word) (s : State) :
    (storeEntry a v s).irqSeen = s.irqSeen := rfl
@[simp] theorem storeEntry_draws (a : Byte) (v : Word) (s : State) :
    (storeEntry a v s).draws = s.draws := rfl

/-! ### returnValue -/

@[simp] theorem returnValue_cfg (v : Word) (s : State) :
    (returnValue v s).cfg = s.cfg := rfl
@[simp] theorem returnValue_op (v : Word) (s : State) :
    (returnValue v s).op = s.op := rfl
@[simp] theorem returnValue_inp (v : Word) (s : State) :
    (returnValue v s).inp = s.inp := rfl
@[simp] theorem returnValue_out (v : Word) (s : State) :
    (returnValue v s).out = s.out := rfl
@[simp] theorem returnValue_variant (v : Word) (s : State) :
    (returnValue v s).variant = s.variant := rfl
@[simp] theorem returnValue_bus (v : Word) (s : State) :
    (returnValue v s).bus = s.bus := rfl
@[simp] theorem returnValue_lastStatus (v : Word) (s : State) :
    (returnValue v s).lastStatus = s.lastStatus := rfl
@[simp] theorem returnValue_cache (v : Word) (s : State) :
    (returnValue v s).cache = s.cache := rfl
@[simp] theorem returnValue_driver (v : Word) (s : State) :
    (returnValue v s).driver = s.driver := rfl
@[simp] theorem returnValue_peer (v : Word) (s : State) :
    (returnValue v s).peer = s.peer := rfl
@[simp] theorem returnValue_calls (v : Word) (s : State) :
    (returnValue v s).calls = s.calls := rfl
@[simp] theorem returnValue_trace (v : Word) (s : State) :
    (returnValue v s).trace = s.trace := rfl
@[simp] theorem returnValue_ret (v : Word) (s : State) :
    (returnValue v s).ret = some v := rfl
@[simp] theorem returnValue_irqSeen (v : Word) (s : State) :
    (returnValue v s).irqSeen = s.irqSeen := rfl
@[simp] theorem returnValue_draws (v : Word) (s : State) :
    (returnValue v s).draws = s.draws := rfl

/-! ### transportEnc -/

@[simp] theorem transportEnc_cfg (a : Byte) (w : BitVec 1) (d : Word) (s : State) :
    (transportEnc a w d s).cfg = s.cfg := rfl
@[simp] theorem transportEnc_op (a : Byte) (w : BitVec 1) (d : Word) (s : State) :
    (transportEnc a w d s).op = 0 := rfl
@[simp] theorem transportEnc_inp (a : Byte) (w : BitVec 1) (d : Word) (s : State) :
    (transportEnc a w d s).inp = { s.inp with addr := a, rw := w, wdata := d } := rfl
@[simp] theorem transportEnc_out (a : Byte) (w : BitVec 1) (d : Word) (s : State) :
    (transportEnc a w d s).out = .tx (encFrame a w d) := rfl
@[simp] theorem transportEnc_variant (a : Byte) (w : BitVec 1) (d : Word) (s : State) :
    (transportEnc a w d s).variant = s.variant := rfl
@[simp] theorem transportEnc_bus (a : Byte) (w : BitVec 1) (d : Word) (s : State) :
    (transportEnc a w d s).bus = s.bus := rfl
@[simp] theorem transportEnc_lastStatus (a : Byte) (w : BitVec 1) (d : Word) (s : State) :
    (transportEnc a w d s).lastStatus = s.lastStatus := rfl
@[simp] theorem transportEnc_cache (a : Byte) (w : BitVec 1) (d : Word) (s : State) :
    (transportEnc a w d s).cache = s.cache := rfl
@[simp] theorem transportEnc_driver (a : Byte) (w : BitVec 1) (d : Word) (s : State) :
    (transportEnc a w d s).driver = s.driver := rfl
@[simp] theorem transportEnc_peer (a : Byte) (w : BitVec 1) (d : Word) (s : State) :
    (transportEnc a w d s).peer = s.peer := rfl
@[simp] theorem transportEnc_calls (a : Byte) (w : BitVec 1) (d : Word) (s : State) :
    (transportEnc a w d s).calls = s.calls := rfl
@[simp] theorem transportEnc_trace (a : Byte) (w : BitVec 1) (d : Word) (s : State) :
    (transportEnc a w d s).trace = s.trace := rfl
@[simp] theorem transportEnc_ret (a : Byte) (w : BitVec 1) (d : Word) (s : State) :
    (transportEnc a w d s).ret = s.ret := rfl
@[simp] theorem transportEnc_irqSeen (a : Byte) (w : BitVec 1) (d : Word) (s : State) :
    (transportEnc a w d s).irqSeen = s.irqSeen := rfl
@[simp] theorem transportEnc_draws (a : Byte) (w : BitVec 1) (d : Word) (s : State) :
    (transportEnc a w d s).draws = s.draws := rfl

/-! ### captureStatus -/

@[simp] theorem captureStatus_cfg (st : Byte) (s : State) :
    (captureStatus st s).cfg = s.cfg := rfl
@[simp] theorem captureStatus_op (st : Byte) (s : State) :
    (captureStatus st s).op = s.op := rfl
@[simp] theorem captureStatus_inp (st : Byte) (s : State) :
    (captureStatus st s).inp = s.inp := rfl
@[simp] theorem captureStatus_out (st : Byte) (s : State) :
    (captureStatus st s).out = s.out := rfl
@[simp] theorem captureStatus_variant (st : Byte) (s : State) :
    (captureStatus st s).variant = s.variant := rfl
@[simp] theorem captureStatus_bus (st : Byte) (s : State) :
    (captureStatus st s).bus = s.bus := rfl
@[simp] theorem captureStatus_lastStatus (st : Byte) (s : State) :
    (captureStatus st s).lastStatus = st := rfl
@[simp] theorem captureStatus_cache (st : Byte) (s : State) :
    (captureStatus st s).cache = s.cache := rfl
@[simp] theorem captureStatus_driver (st : Byte) (s : State) :
    (captureStatus st s).driver = s.driver := rfl
@[simp] theorem captureStatus_peer (st : Byte) (s : State) :
    (captureStatus st s).peer = s.peer := rfl
@[simp] theorem captureStatus_calls (st : Byte) (s : State) :
    (captureStatus st s).calls = s.calls := rfl
@[simp] theorem captureStatus_trace (st : Byte) (s : State) :
    (captureStatus st s).trace = s.trace ++ [.maskInterrupts, .capture st, .restoreInterrupts] := rfl
@[simp] theorem captureStatus_ret (st : Byte) (s : State) :
    (captureStatus st s).ret = s.ret := rfl
@[simp] theorem captureStatus_irqSeen (st : Byte) (s : State) :
    (captureStatus st s).irqSeen = s.irqSeen := rfl
@[simp] theorem captureStatus_draws (st : Byte) (s : State) :
    (captureStatus st s).draws = s.draws := rfl

/-! ### receiveReply -/

@[simp] theorem receiveReply_cfg (rx : Frame) (s : State) :
    (receiveReply rx s).cfg = s.cfg := rfl
@[simp] theorem receiveReply_op (rx : Frame) (s : State) :
    (receiveReply rx s).op = 1 := rfl
@[simp] theorem receiveReply_inp (rx : Frame) (s : State) :
    (receiveReply rx s).inp = { s.inp with rx := rx } := rfl
@[simp] theorem receiveReply_out (rx : Frame) (s : State) :
    (receiveReply rx s).out = .reply (decStatus rx) (decPayload rx) := rfl
@[simp] theorem receiveReply_variant (rx : Frame) (s : State) :
    (receiveReply rx s).variant = s.variant := rfl
@[simp] theorem receiveReply_bus (rx : Frame) (s : State) :
    (receiveReply rx s).bus = s.bus := rfl
@[simp] theorem receiveReply_lastStatus (rx : Frame) (s : State) :
    (receiveReply rx s).lastStatus = decStatus rx := rfl
@[simp] theorem receiveReply_cache (rx : Frame) (s : State) :
    (receiveReply rx s).cache = s.cache := rfl
@[simp] theorem receiveReply_driver (rx : Frame) (s : State) :
    (receiveReply rx s).driver = s.driver := rfl
@[simp] theorem receiveReply_peer (rx : Frame) (s : State) :
    (receiveReply rx s).peer = s.peer := rfl
@[simp] theorem receiveReply_calls (rx : Frame) (s : State) :
    (receiveReply rx s).calls = s.calls := rfl
@[simp] theorem receiveReply_trace (rx : Frame) (s : State) :
    (receiveReply rx s).trace = s.trace ++ [.maskInterrupts, .capture (decStatus rx), .restoreInterrupts] := rfl
@[simp] theorem receiveReply_ret (rx : Frame) (s : State) :
    (receiveReply rx s).ret = s.ret := rfl
@[simp] theorem receiveReply_irqSeen (rx : Frame) (s : State) :
    (receiveReply rx s).irqSeen = s.irqSeen := rfl
@[simp] theorem receiveReply_draws (rx : Frame) (s : State) :
    (receiveReply rx s).draws = s.draws := rfl

/-! ### completeExchange -/

@[simp] theorem completeExchange_cfg (tx rx : Frame) (p : Peer) (s : State) :
    (completeExchange tx rx p s).cfg = s.cfg := rfl
@[simp] theorem completeExchange_op (tx rx : Frame) (p : Peer) (s : State) :
    (completeExchange tx rx p s).op = 1 := rfl
@[simp] theorem completeExchange_inp (tx rx : Frame) (p : Peer) (s : State) :
    (completeExchange tx rx p s).inp = { s.inp with rx := rx } := rfl
@[simp] theorem completeExchange_out (tx rx : Frame) (p : Peer) (s : State) :
    (completeExchange tx rx p s).out = .reply (decStatus rx) (decPayload rx) := rfl
@[simp] theorem completeExchange_variant (tx rx : Frame) (p : Peer) (s : State) :
    (completeExchange tx rx p s).variant = s.variant := rfl
@[simp] theorem completeExchange_bus (tx rx : Frame) (p : Peer) (s : State) :
    (completeExchange tx rx p s).bus = s.bus := rfl
@[simp] theorem completeExchange_lastStatus (tx rx : Frame) (p : Peer) (s : State) :
    (completeExchange tx rx p s).lastStatus = decStatus rx := rfl
@[simp] theorem completeExchange_cache (tx rx : Frame) (p : Peer) (s : State) :
    (completeExchange tx rx p s).cache = s.cache := rfl
@[simp] theorem completeExchange_driver (tx rx : Frame) (p : Peer) (s : State) :
    (completeExchange tx rx p s).driver = s.driver := rfl
@[simp] theorem completeExchange_peer (tx rx : Frame) (p : Peer) (s : State) :
    (completeExchange tx rx p s).peer = p := rfl
@[simp] theorem completeExchange_calls (tx rx : Frame) (p : Peer) (s : State) :
    (completeExchange tx rx p s).calls = s.calls := rfl
@[simp] theorem completeExchange_trace (tx rx : Frame) (p : Peer) (s : State) :
    (completeExchange tx rx p s).trace = s.trace ++ shuttle tx rx ++ [.maskInterrupts, .capture (decStatus rx), .restoreInterrupts] := rfl
@[simp] theorem completeExchange_ret (tx rx : Frame) (p : Peer) (s : State) :
    (completeExchange tx rx p s).ret = s.ret := rfl
@[simp] theorem completeExchange_irqSeen (tx rx : Frame) (p : Peer) (s : State) :
    (completeExchange tx rx p s).irqSeen = s.irqSeen := rfl
@[simp] theorem completeExchange_draws (tx rx : Frame) (p : Peer) (s : State) :
    (completeExchange tx rx p s).draws = s.draws + 1 := rfl

/-! ### pinWrite -/

@[simp] theorem pinWrite_cfg (pin : Nat) (l : Level) (s : State) :
    (pinWrite pin l s).cfg = s.cfg := rfl
@[simp] theorem pinWrite_op (pin : Nat) (l : Level) (s : State) :
    (pinWrite pin l s).op = s.op := rfl
@[simp] theorem pinWrite_inp (pin : Nat) (l : Level) (s : State) :
    (pinWrite pin l s).inp = s.inp := rfl
@[simp] theorem pinWrite_out (pin : Nat) (l : Level) (s : State) :
    (pinWrite pin l s).out = s.out := rfl
@[simp] theorem pinWrite_variant (pin : Nat) (l : Level) (s : State) :
    (pinWrite pin l s).variant = s.variant := rfl
@[simp] theorem pinWrite_bus (pin : Nat) (l : Level) (s : State) :
    (pinWrite pin l s).bus = s.bus := rfl
@[simp] theorem pinWrite_lastStatus (pin : Nat) (l : Level) (s : State) :
    (pinWrite pin l s).lastStatus = s.lastStatus := rfl
@[simp] theorem pinWrite_cache (pin : Nat) (l : Level) (s : State) :
    (pinWrite pin l s).cache = s.cache := rfl
@[simp] theorem pinWrite_driver (pin : Nat) (l : Level) (s : State) :
    (pinWrite pin l s).driver = { s.driver with pinLevel := l } := rfl
@[simp] theorem pinWrite_peer (pin : Nat) (l : Level) (s : State) :
    (pinWrite pin l s).peer = s.peer := rfl
@[simp] theorem pinWrite_calls (pin : Nat) (l : Level) (s : State) :
    (pinWrite pin l s).calls = s.calls := rfl
@[simp] theorem pinWrite_trace (pin : Nat) (l : Level) (s : State) :
    (pinWrite pin l s).trace = s.trace ++ [.pinWrite pin l] := rfl
@[simp] theorem pinWrite_ret (pin : Nat) (l : Level) (s : State) :
    (pinWrite pin l s).ret = s.ret := rfl
@[simp] theorem pinWrite_irqSeen (pin : Nat) (l : Level) (s : State) :
    (pinWrite pin l s).irqSeen = s.irqSeen := rfl
@[simp] theorem pinWrite_draws (pin : Nat) (l : Level) (s : State) :
    (pinWrite pin l s).draws = s.draws := rfl

/-! ### recordHardware -/

@[simp] theorem recordHardware_cfg (b : Bool) (s : State) :
    (recordHardware b s).cfg = s.cfg := rfl
@[simp] theorem recordHardware_op (b : Bool) (s : State) :
    (recordHardware b s).op = s.op := rfl
@[simp] theorem recordHardware_inp (b : Bool) (s : State) :
    (recordHardware b s).inp = s.inp := rfl
@[simp] theorem recordHardware_out (b : Bool) (s : State) :
    (recordHardware b s).out = s.out := rfl
@[simp] theorem recordHardware_variant (b : Bool) (s : State) :
    (recordHardware b s).variant = s.variant := rfl
@[simp] theorem recordHardware_bus (b : Bool) (s : State) :
    (recordHardware b s).bus = s.bus := rfl
@[simp] theorem recordHardware_lastStatus (b : Bool) (s : State) :
    (recordHardware b s).lastStatus = s.lastStatus := rfl
@[simp] theorem recordHardware_cache (b : Bool) (s : State) :
    (recordHardware b s).cache = s.cache := rfl
@[simp] theorem recordHardware_driver (b : Bool) (s : State) :
    (recordHardware b s).driver = { s.driver with hwEnabled := b } := rfl
@[simp] theorem recordHardware_peer (b : Bool) (s : State) :
    (recordHardware b s).peer = s.peer := rfl
@[simp] theorem recordHardware_calls (b : Bool) (s : State) :
    (recordHardware b s).calls = s.calls := rfl
@[simp] theorem recordHardware_trace (b : Bool) (s : State) :
    (recordHardware b s).trace = s.trace := rfl
@[simp] theorem recordHardware_ret (b : Bool) (s : State) :
    (recordHardware b s).ret = s.ret := rfl
@[simp] theorem recordHardware_irqSeen (b : Bool) (s : State) :
    (recordHardware b s).irqSeen = s.irqSeen := rfl
@[simp] theorem recordHardware_draws (b : Bool) (s : State) :
    (recordHardware b s).draws = s.draws := rfl

/-! ### recordSoftware -/

@[simp] theorem recordSoftware_cfg (b : Bool) (s : State) :
    (recordSoftware b s).cfg = s.cfg := rfl
@[simp] theorem recordSoftware_op (b : Bool) (s : State) :
    (recordSoftware b s).op = s.op := rfl
@[simp] theorem recordSoftware_inp (b : Bool) (s : State) :
    (recordSoftware b s).inp = s.inp := rfl
@[simp] theorem recordSoftware_out (b : Bool) (s : State) :
    (recordSoftware b s).out = s.out := rfl
@[simp] theorem recordSoftware_variant (b : Bool) (s : State) :
    (recordSoftware b s).variant = s.variant := rfl
@[simp] theorem recordSoftware_bus (b : Bool) (s : State) :
    (recordSoftware b s).bus = s.bus := rfl
@[simp] theorem recordSoftware_lastStatus (b : Bool) (s : State) :
    (recordSoftware b s).lastStatus = s.lastStatus := rfl
@[simp] theorem recordSoftware_cache (b : Bool) (s : State) :
    (recordSoftware b s).cache = s.cache := rfl
@[simp] theorem recordSoftware_driver (b : Bool) (s : State) :
    (recordSoftware b s).driver = { s.driver with swEnabled := b } := rfl
@[simp] theorem recordSoftware_peer (b : Bool) (s : State) :
    (recordSoftware b s).peer = s.peer := rfl
@[simp] theorem recordSoftware_calls (b : Bool) (s : State) :
    (recordSoftware b s).calls = s.calls := rfl
@[simp] theorem recordSoftware_trace (b : Bool) (s : State) :
    (recordSoftware b s).trace = s.trace := rfl
@[simp] theorem recordSoftware_ret (b : Bool) (s : State) :
    (recordSoftware b s).ret = s.ret := rfl
@[simp] theorem recordSoftware_irqSeen (b : Bool) (s : State) :
    (recordSoftware b s).irqSeen = s.irqSeen := rfl
@[simp] theorem recordSoftware_draws (b : Bool) (s : State) :
    (recordSoftware b s).draws = s.draws := rfl

/-! ### bindBank -/

@[simp] theorem bindBank_cfg (s : State) :
    (bindBank s).cfg = s.cfg := rfl
@[simp] theorem bindBank_op (s : State) :
    (bindBank s).op = s.op := rfl
@[simp] theorem bindBank_inp (s : State) :
    (bindBank s).inp = s.inp := rfl
@[simp] theorem bindBank_out (s : State) :
    (bindBank s).out = s.out := rfl
@[simp] theorem bindBank_variant (s : State) :
    (bindBank s).variant = s.variant := rfl
@[simp] theorem bindBank_bus (s : State) :
    (bindBank s).bus = s.bus := rfl
@[simp] theorem bindBank_lastStatus (s : State) :
    (bindBank s).lastStatus = s.lastStatus := rfl
@[simp] theorem bindBank_cache (s : State) :
    (bindBank s).cache = s.cache := rfl
@[simp] theorem bindBank_driver (s : State) :
    (bindBank s).driver = { s.driver with bound := true } := rfl
@[simp] theorem bindBank_peer (s : State) :
    (bindBank s).peer = s.peer := rfl
@[simp] theorem bindBank_calls (s : State) :
    (bindBank s).calls = s.calls := rfl
@[simp] theorem bindBank_trace (s : State) :
    (bindBank s).trace = s.trace := rfl
@[simp] theorem bindBank_ret (s : State) :
    (bindBank s).ret = s.ret := rfl
@[simp] theorem bindBank_irqSeen (s : State) :
    (bindBank s).irqSeen = s.irqSeen := rfl
@[simp] theorem bindBank_draws (s : State) :
    (bindBank s).draws = s.draws := rfl

end Sys2Proof.Machine
end

