-- ==== Sys2Proof/Laws/Ops.lean ====
section
/-! SUPPORT. What each shared operation can do, said once: an exchange, an instruction, a register write, a
read-modify-write and a step. -/

namespace Sys2Proof.Machine

/-- On the SPI variant with a reliable bus an exchange completes with the peer's reply. -/
theorem exchange_reliable {s : State} (hv : s.variant = .spi) (hb : s.bus = .reliable)
    (a : BitVec 7) (w : BitVec 1) (d : Word) :
    exchange a w d s = .next (completeExchange (mosiFrame a w d) (peerReply s.draws s.peer)
      (peerAfter s.draws s.peer a w d) s) := by
  simp [exchange, hv, hb]

/-- On a malfunctioning bus an exchange completes with garbage. -/
theorem exchange_garbage {s : State} (hv : s.variant = .spi) (hb : s.bus = .garbage)
    (a : BitVec 7) (w : BitVec 1) (d : Word) :
    exchange a w d s = .next (completeExchange (mosiFrame a w d) (garbageReply s.draws)
      (peerAfterGarbage s.draws s.peer) s) := by
  simp [exchange, hv, hb]

/-- If an exchange answers a next state, it is a completed exchange of the frame, with the peer's reply on
a reliable bus and garbage on a malfunctioning one. -/
theorem exchange_cases {s t : State} {a : BitVec 7} {w : BitVec 1} {d : Word}
    (h : exchange a w d s = .next t) :
    ∃ rx p, t = completeExchange (mosiFrame a w d) rx p s ∧
      (rx = peerReply s.draws s.peer ∧ p = peerAfter s.draws s.peer a w d ∨
       rx = garbageReply s.draws ∧ p = peerAfterGarbage s.draws s.peer) := by
  unfold exchange at h
  split at h
  · cases h
  · split at h
    · cases h
    · cases h
    · cases h; exact ⟨_, _, rfl, .inr ⟨rfl, rfl⟩⟩
    · cases h; exact ⟨_, _, rfl, .inl ⟨rfl, rfl⟩⟩

/-- If an instruction answers a next state, it selected an operation whose outputs are the block's, or
completed an exchange, or took a reply in. -/
theorem exec_cases {i : Instr} {s t : State} (h : exec i s = .next t) :
    (∃ op, t = selectOp op (blockOutputs s.cfg op s.inp) s) ∨
    (∃ a w d, exchange a w d s = .next t) ∨
    (∃ st d, t = receiveReply (misoFrame st d) s) := by
  cases i with
  | enc => cases h; exact .inl ⟨0, rfl⟩
  | dec => cases h; exact .inl ⟨1, rfl⟩
  | p2cs => cases h; exact .inl ⟨2, rfl⟩
  | cs2p => cases h; exact .inl ⟨3, rfl⟩
  | p2hd => cases h; exact .inl ⟨4, rfl⟩
  | hd2p => cases h; exact .inl ⟨5, rfl⟩
  | p2gs => cases h; exact .inl ⟨6, rfl⟩
  | reserved7 => cases h
  | write a d => exact .inr (.inl ⟨a, 1, d, h⟩)
  | read a d => exact .inr (.inl ⟨a, 0, d, h⟩)
  | reply st d =>
    simp only [exec, execReply] at h
    split at h
    · cases h
    · cases h; exact .inr (.inr ⟨st, d, rfl⟩)

/-- The next call is a word: the step executes the instruction it decodes to. -/
theorem step_word {s : State} {c : Code} {rest : List Call} {i : Instr}
    (hc : s.calls = .word c :: rest) (hd : decode c = .ok i) :
    step s = exec i (setCalls rest s) := by
  simp [step, takeCall, hc, hd]

/-- The next call is a procedure: the step runs it. -/
theorem step_proc {s : State} {p : Proc} {rest : List Call} (hc : s.calls = .proc p :: rest) :
    step s = runProc p (setCalls rest s) := by
  simp [step, takeCall, hc]

/-- The next call is an exchange of an assembled frame. -/
theorem step_exchangeCall {s : State} {a : BitVec 7} {w : BitVec 1} {d : Word} {rest : List Call}
    (hc : s.calls = exchangeCall (mosiFrame a w d) :: rest) :
    step s = exchange a w d (setCalls rest s) := by
  rw [step_word hc (decode_mosiFrame a w d)]
  by_cases h : w = 1
  · subst h; simp [exec, execWrite]
  · have h0 : w = 0 := by
      rcases BitVec.eq_zero_or_eq_one w with h0 | h1
      · exact h0
      · exact absurd h1 h
    subst h0; simp [exec, execRead]

/-- WRITE_REG of the SPI variant. -/
theorem writeReg_spi {s : State} (hv : s.variant = .spi) (a : Byte) (v : Word) :
    writeReg a v s = .next (pushCalls [exchangeCall (encFrame a 1 v)] (transportEnc a 1 v s)) := by
  simp [writeReg, hv]

/-- BANK_WRITE of the SPI variant. -/
theorem bankWrite_spi {s : State} (hv : s.variant = .spi) (a : Byte) (v : Word) :
    bankWrite a v s = .next (pushCalls [exchangeCall (encFrame a 1 v)]
      (transportEnc a 1 v (storeEntry a v s))) :=
  writeReg_spi (s := storeEntry a v s) hv a v

/-- READ_REG of the SPI variant. -/
theorem readReg_spi {s : State} (hv : s.variant = .spi) (a : Byte) :
    readReg a s = .next (pushCalls
      [exchangeCall (encFrame a 0 0), exchangeCall (encFrame a 0 0), .proc .returnPayload]
      (transportEnc a 0 0 s)) := by
  simp [readReg, hv]

/-- RMW of an entry that has a value is a BANK_WRITE of the updated value. -/
theorem rmw_stored {s : State} {a : Byte} {r : Word} (h : s.cache.read a.toNat = some r)
    (fields : List (FieldRange × Word)) :
    rmw a fields s = bankWrite a (insertFields r fields) s := by
  simp [rmw, h]

/-- If XCHG answers a next state, the exchange is the caller's next call. -/
theorem xchg_cases {s t : State} {tx : Frame} (h : xchg tx s = .next t) :
    t = pushCalls [exchangeCall tx] s := by
  unfold xchg at h
  split at h <;> cases h
  rfl

/-- If WRITE_REG answers a next state, it is this one. -/
theorem writeReg_cases {s t : State} {a : Byte} {v : Word} (h : writeReg a v s = .next t) :
    t = pushCalls [exchangeCall (encFrame a 1 v)] (transportEnc a 1 v s) := by
  unfold writeReg at h
  split at h <;> cases h
  rfl

/-- If BANK_WRITE answers a next state, it is this one. -/
theorem bankWrite_cases {s t : State} {a : Byte} {v : Word} (h : bankWrite a v s = .next t) :
    t = pushCalls [exchangeCall (encFrame a 1 v)]
      (transportEnc a 1 v (storeEntry a v s)) :=
  writeReg_cases h

/-- If RMW answers a next state, the entry had a value and the state is that of a BANK_WRITE. -/
theorem rmw_cases {s t : State} {a : Byte} {fields : List (FieldRange × Word)}
    (h : rmw a fields s = .next t) :
    ∃ r, s.cache.read a.toNat = some r ∧
      t = pushCalls [exchangeCall (encFrame a 1 (insertFields r fields))]
        (transportEnc a 1 (insertFields r fields)
          (storeEntry a (insertFields r fields) s)) := by
  unfold rmw at h
  split at h
  · next r hr => exact ⟨r, hr, bankWrite_cases h⟩
  · cases h

/-- With a bank bound, a procedure that works through the bank is what it is without the check. -/
theorem throughBank_bound {s : State} (h : s.driver.bound = true)
    (k : State → Host.Outcome State Fault Refusal) : throughBank k s = k s := by
  simp [throughBank, h]

/-- If a procedure that works through the bank answers a next state, a bank was bound. -/
theorem throughBank_cases {k : State → Host.Outcome State Fault Refusal} {s t : State}
    (h : throughBank k s = .next t) : s.driver.bound = true ∧ k s = .next t := by
  unfold throughBank at h
  split at h
  · exact ⟨‹_›, h⟩
  · cases h

end Sys2Proof.Machine
end

