-- ==== Sys2Proof/Laws/PerInstr.lean ====
section
/-! SUPPORT. Statements about every instruction, one lemma per constructor. -/

namespace Sys2Proof.Laws.CodeShape

/-- The shape of an instruction's encoding: an operation select is one byte whose upper five bits are zero
(spec/30_encoding.md R56); a frame is exactly five bytes (R50). -/
def Statement (i : Instr) : Prop :=
  match encode i with
  | .opsel bs => bs.length = 1 ∧ ∀ b ∈ bs, b.toNat < 8
  | .mosi bs => bs.length = 5
  | .miso bs => bs.length = 5

theorem enc : Statement .enc := by simp [Statement, encode]
theorem dec : Statement .dec := by simp [Statement, encode]
theorem p2cs : Statement .p2cs := by simp [Statement, encode]
theorem cs2p : Statement .cs2p := by simp [Statement, encode]
theorem p2hd : Statement .p2hd := by simp [Statement, encode]
theorem hd2p : Statement .hd2p := by simp [Statement, encode]
theorem p2gs : Statement .p2gs := by simp [Statement, encode]
theorem reserved7 : Statement .reserved7 := by simp [Statement, encode]
theorem write (a : BitVec 7) (d : Word) : Statement (.write a d) := by
  simp [Statement, encode, frameBytes]
theorem read (a : BitVec 7) (d : Word) : Statement (.read a d) := by
  simp [Statement, encode, frameBytes]
theorem reply (st : Byte) (d : Word) : Statement (.reply st d) := by
  simp [Statement, encode, frameBytes]

end Sys2Proof.Laws.CodeShape
end

