-- ==== Sys2Proof/Laws/Steps.lean ====
section
/-! SUPPORT. What a procedure and a step can do, said once: every rule about all steps is read off these two
inversion lemmas. -/

namespace Sys2Proof.Machine

/-- An event that assigns no status. -/
def quietEvent (e : BusEvent) : Bool :=
  match e with
  | .capture _ => false
  | _ => true

/-- `t` is `s` but for the Driver's record and pin level, the caller's calls, the model's own records, and
events that assign no status. -/
structure HostOnly (s t : State) : Prop where
  cfg : t.cfg = s.cfg
  op : t.op = s.op
  inp : t.inp = s.inp
  out : t.out = s.out
  variant : t.variant = s.variant
  bus : t.bus = s.bus
  lastStatus : t.lastStatus = s.lastStatus
  cache : t.cache = s.cache
  peer : t.peer = s.peer
  draws : t.draws = s.draws
  hwPin : t.driver.hwPin = s.driver.hwPin
  trace : ∃ events, t.trace = s.trace ++ events ∧ ∀ e ∈ events, quietEvent e = true

/-- A state that keeps all but the Driver's record, the calls and the model's records. -/
theorem HostOnly.quiet {s t : State} (cfg : t.cfg = s.cfg) (op : t.op = s.op) (inp : t.inp = s.inp)
    (out : t.out = s.out) (variant : t.variant = s.variant) (bus : t.bus = s.bus)
    (lastStatus : t.lastStatus = s.lastStatus) (cache : t.cache = s.cache) (peer : t.peer = s.peer)
    (draws : t.draws = s.draws) (hwPin : t.driver.hwPin = s.driver.hwPin)
    (trace : t.trace = s.trace) : HostOnly s t :=
  ⟨cfg, op, inp, out, variant, bus, lastStatus, cache, peer, draws, hwPin, [], by simp [trace], by simp⟩

/-- Calls may be replaced. -/
theorem HostOnly.withCalls {s : State} (cs : List Call) : HostOnly s (setCalls cs s) :=
  .quiet rfl rfl rfl rfl rfl rfl rfl rfl rfl rfl rfl rfl

/-- Calls may be put in front. -/
theorem HostOnly.pushed {s : State} (cs : List Call) : HostOnly s (pushCalls cs s) :=
  .quiet rfl rfl rfl rfl rfl rfl rfl rfl rfl rfl rfl rfl

/-- The software record may be set. -/
theorem HostOnly.withSoftware {s : State} (b : Bool) :
    HostOnly s (recordSoftware b s) :=
  .quiet rfl rfl rfl rfl rfl rfl rfl rfl rfl rfl rfl rfl

/-- Host-only changes compose. -/
theorem HostOnly.trans {s t u : State} (h : HostOnly s t) (k : HostOnly t u) : HostOnly s u := by
  obtain ⟨e1, h1, q1⟩ := h.trace
  obtain ⟨e2, h2, q2⟩ := k.trace
  refine ⟨k.cfg.trans h.cfg, k.op.trans h.op, k.inp.trans h.inp, k.out.trans h.out,
    k.variant.trans h.variant, k.bus.trans h.bus, k.lastStatus.trans h.lastStatus,
    k.cache.trans h.cache, k.peer.trans h.peer, k.draws.trans h.draws, k.hwPin.trans h.hwPin,
    e1 ++ e2, by rw [h2, h1, List.append_assoc], ?_⟩
  intro e he
  rcases List.mem_append.1 he with he | he
  · exact q1 e he
  · exact q2 e he

theorem hostOnly_hardwareEnabled (s : State) : HostOnly s (hardwareEnabled s) := by
  unfold hardwareEnabled
  split
  · exact ⟨rfl, rfl, rfl, rfl, rfl, rfl, rfl, rfl, rfl, rfl, rfl, _, rfl, by simp [quietEvent]⟩
  · exact .quiet rfl rfl rfl rfl rfl rfl rfl rfl rfl rfl rfl rfl

theorem hostOnly_hardwareDisabled (s : State) : HostOnly s (hardwareDisabled s) := by
  unfold hardwareDisabled
  split
  · exact ⟨rfl, rfl, rfl, rfl, rfl, rfl, rfl, rfl, rfl, rfl, rfl, _, rfl, by simp [quietEvent]⟩
  · exact .quiet rfl rfl rfl rfl rfl rfl rfl rfl rfl rfl rfl rfl

/-- A write through the bank: the cache entry set, ENC evaluated, and the exchange the caller's next
call. -/
abbrev WriteThrough (s t : State) : Prop :=
  ∃ (u : State) (a : Byte) (v : Word), HostOnly s u ∧
    t = pushCalls [exchangeCall (encFrame a 1 v)]
      (transportEnc a 1 v (storeEntry a v u))

theorem writeThrough_bankWrite {s u t : State} {a : Byte} {v : Word} (hu : HostOnly s u)
    (h : bankWrite a v u = .next t) : WriteThrough s t :=
  ⟨u, a, v, hu, bankWrite_cases h⟩

theorem writeThrough_rmw {s u t : State} {a : Byte} {fields : List (FieldRange × Word)}
    (hu : HostOnly s u) (h : rmw a fields u = .next t) : WriteThrough s t := by
  obtain ⟨r, _, ht⟩ := rmw_cases h
  exact ⟨u, a, insertFields r fields, hu, ht⟩

/-- If a procedure answers a next state, it changed the host's side only, or evaluated ENC for an exchange
that comes next, or wrote through the bank, or stored what was read back. -/
theorem runProc_cases {p : Proc} {s t : State} (h : runProc p s = .next t) :
    HostOnly s t ∨
    (∃ (u : State) (a : Byte) (w : BitVec 1) (d : Word) (cs : List Call), HostOnly s u ∧
      t = pushCalls cs (transportEnc a w d u)) ∨
    WriteThrough s t ∨
    (∃ a, p = .bankStore a ∧ 
      t = returnValue (decPayload s.inp.rx) (storeEntry a (decPayload s.inp.rx) s)) := by
  have refl : HostOnly s s := .quiet rfl rfl rfl rfl rfl rfl rfl rfl rfl rfl rfl rfl
  cases p with
  | xchg tx => rw [xchg_cases h]; exact .inl (.pushed _)
  | writeReg a v =>
    exact .inr (.inl ⟨s, a, 1, v, _, refl, writeReg_cases h⟩)
  | readReg a =>
    simp only [runProc, readReg] at h
    split at h <;> cases h
    exact .inr (.inl ⟨s, a, 0, 0, _, refl, rfl⟩)
  | returnPayload => cases h; exact .inl (.quiet rfl rfl rfl rfl rfl rfl rfl rfl rfl rfl rfl rfl)
  | bankWrite a v => exact .inr (.inr (.inl (writeThrough_bankWrite refl h)))
  | getStored a =>
    simp only [runProc, getStored] at h
    split at h <;> cases h
    exact .inl (.quiet rfl rfl rfl rfl rfl rfl rfl rfl rfl rfl rfl rfl)
  | bankRead a =>
    simp only [runProc, bankRead, readReg] at h
    split at h <;> cases h
    exact .inr (.inl ⟨pushCalls [.proc (.bankStore a)] s, a, 0, 0, _, .pushed _, rfl⟩)
  | bankStore a => cases h; exact .inr (.inr (.inr ⟨a, rfl, rfl⟩))
  | rmw a fields => exact .inr (.inr (.inl (writeThrough_rmw refl h)))
  | hardwareEnable => cases h; exact .inl (hostOnly_hardwareEnabled s)
  | hardwareDisable => cases h; exact .inl (hostOnly_hardwareDisabled s)
  | softwareEnable =>
    simp only [runProc, softwareEnable] at h
    exact .inr (.inr (.inl (writeThrough_rmw
      (.withSoftware _) (throughBank_cases h).2)))
  | softwareDisable =>
    simp only [runProc, softwareDisable] at h
    exact .inr (.inr (.inl (writeThrough_rmw
      (.withSoftware _) (throughBank_cases h).2)))
  | enable =>
    simp only [runProc, enable, softwareEnable] at h
    exact .inr (.inr (.inl (writeThrough_rmw
      ((hostOnly_hardwareEnabled s).trans (.withSoftware _))
      (throughBank_cases h).2)))
  | disable =>
    simp only [runProc, disable, softwareDisable] at h
    exact .inr (.inr (.inl (writeThrough_rmw
      ((hostOnly_hardwareDisabled s).trans (.withSoftware _))
      (throughBank_cases h).2)))
  | setup => cases h; exact .inl (.quiet rfl rfl rfl rfl rfl rfl rfl rfl rfl rfl rfl rfl)
  | minimizeMotorCurrent =>
    simp only [runProc, minimizeMotorCurrent] at h
    exact .inr (.inr (.inl (writeThrough_bankWrite (.pushed _) (throughBank_cases h).2)))
  | setRunCurrent p => exact .inr (.inr (.inl (writeThrough_rmw refl (throughBank_cases h).2)))
  | setHoldCurrent p => exact .inr (.inr (.inl (writeThrough_rmw refl (throughBank_cases h).2)))
  | setHoldDelay p => exact .inr (.inr (.inl (writeThrough_rmw refl (throughBank_cases h).2)))
  | setAllCurrentValues x y z =>
    exact .inr (.inr (.inl (writeThrough_rmw refl (throughBank_cases h).2)))
  | setGlobalScaler p =>
    exact .inr (.inr (.inl (writeThrough_bankWrite refl (throughBank_cases h).2)))
  | enableAutomaticCurrentControl =>
    exact .inr (.inr (.inl (writeThrough_rmw refl (throughBank_cases h).2)))
  | disableAutomaticCurrentControl =>
    exact .inr (.inr (.inl (writeThrough_rmw refl (throughBank_cases h).2)))
  | statusRead => cases h; exact .inl (.quiet rfl rfl rfl rfl rfl rfl rfl rfl rfl rfl rfl rfl)

/-- If a step answers a next state, the caller had nothing to do, or ports were driven, or a procedure ran,
or a decoded instruction was executed. -/
theorem step_cases {s t : State} (h : step s = .next t) :
    (s.calls = [] ∧ t = s) ∨
    (∃ inp rest, s.calls = .drive inp :: rest ∧ t = drivePorts inp (setCalls rest s)) ∨
    (∃ p rest, s.calls = .proc p :: rest ∧ runProc p (setCalls rest s) = .next t) ∨
    (∃ c i rest, s.calls = .word c :: rest ∧ decode c = .ok i ∧
      exec i (setCalls rest s) = .next t) := by
  unfold step takeCall at h
  cases hc : s.calls with
  | nil => rw [hc] at h; cases h; exact .inl ⟨rfl, rfl⟩
  | cons c rest =>
    rw [hc] at h
    cases c with
    | drive inp => cases h; exact .inr (.inl ⟨inp, rest, rfl, rfl⟩)
    | proc p => exact .inr (.inr (.inl ⟨p, rest, rfl, h⟩))
    | word c =>
      simp only at h
      split at h
      · next i hi => exact .inr (.inr (.inr ⟨c, i, rest, rfl, hi, h⟩))
      · cases h

end Sys2Proof.Machine
end

