-- ==== Sys2Proof/Laws/Records.lean ====
section
/-! SUPPORT. What an instruction and a procedure add to the record, and the calls a procedure places. -/

namespace Sys2Proof.Machine

/-- If an exchange answers a next state, the record gained the events of one exchange of its frame, and the
caller's remaining calls are the same. -/
theorem exchange_events {s t : State} {a : BitVec 7} {w : BitVec 1} {d : Word}
    (h : exchange a w d s = .next t) : t.calls = s.calls ∧
      ∃ rx, t.trace = s.trace ++ exchangeEvents (mosiFrame a w d) rx := by
  obtain ⟨rx, p, rfl, _⟩ := exchange_cases h
  exact ⟨rfl, rx, by simp [exchangeEvents, shuttle, decStatus]⟩

/-- If an instruction answers a next state, the record gained its events and the caller's remaining calls
are the same. -/
theorem exec_events {i : Instr} {s t : State} (h : exec i s = .next t) : t.calls = s.calls ∧
    ∃ events, t.trace = s.trace ++ events ∧ InstrEvents i events := by
  cases i with
  | write a d =>
    obtain ⟨hc, rx, ht⟩ := exchange_events h
    exact ⟨hc, _, ht, rx, rfl⟩
  | read a d =>
    obtain ⟨hc, rx, ht⟩ := exchange_events h
    exact ⟨hc, _, ht, rx, rfl⟩
  | reply st d =>
    simp only [exec, execReply] at h
    split at h <;> cases h
    exact ⟨rfl, _, rfl, rfl⟩
  | _ => cases h <;> exact ⟨rfl, [], by simp, rfl⟩

/-- `hardwareEnable` adds the write of a configured pin to the record. -/
theorem hardwareEnabled_trace (s : State) :
    (hardwareEnabled s).trace = s.trace ++ pinEvents s.driver.hwPin .low := by
  unfold hardwareEnabled pinEvents
  split <;> simp_all [pinWrite, recordHardware]

/-- `hardwareDisable` adds the write of a configured pin to the record. -/
theorem hardwareDisabled_trace (s : State) :
    (hardwareDisabled s).trace = s.trace ++ pinEvents s.driver.hwPin .high := by
  unfold hardwareDisabled pinEvents
  split <;> simp_all [pinWrite, recordHardware]

@[simp] theorem hardwareEnabled_calls (s : State) : (hardwareEnabled s).calls = s.calls := by
  unfold hardwareEnabled
  split <;> rfl

@[simp] theorem hardwareDisabled_calls (s : State) : (hardwareDisabled s).calls = s.calls := by
  unfold hardwareDisabled
  split <;> rfl

/-- If a BANK_WRITE answers a next state, the record is unchanged and one WRITE exchange is placed. -/
theorem bankWrite_places {s t : State} {a : Byte} {v : Word} (h : bankWrite a v s = .next t) :
    t.trace = s.trace ∧ t.calls = [exchangeCall (encFrame a 1 v)] ++ s.calls := by
  rw [bankWrite_cases h]
  exact ⟨rfl, rfl⟩

/-- If an RMW answers a next state, the record is unchanged and one WRITE exchange is placed. -/
theorem rmw_places {s t : State} {a : Byte} {fields : List (FieldRange × Word)}
    (h : rmw a fields s = .next t) :
    t.trace = s.trace ∧ ∃ placed, t.calls = placed ++ s.calls ∧ OneWrite a placed := by
  obtain ⟨r, _, ht⟩ := rmw_cases h
  rw [ht]
  exact ⟨rfl, _, rfl, _, rfl⟩

/-- If a procedure answers a next state, it added its pin write to the record and placed its own exchanges
in front of the caller's remaining calls. -/
theorem runProc_places {p : Proc} {s t : State} (h : runProc p s = .next t) :
    t.trace = s.trace ++ procEvents s.driver.hwPin p ∧
    ∃ placed, t.calls = placed ++ s.calls ∧ ProcPlaces s.cfg p placed := by
  have quiet : ∀ {q : Proc}, procEvents s.driver.hwPin q = [] → ∀ {placed : List Call},
      t.trace = s.trace → t.calls = placed ++ s.calls → ProcPlaces s.cfg q placed →
      t.trace = s.trace ++ procEvents s.driver.hwPin q ∧
      ∃ placed, t.calls = placed ++ s.calls ∧ ProcPlaces s.cfg q placed :=
    fun hq _ ht hc hp => ⟨by rw [hq, ht, List.append_nil], _, hc, hp⟩
  have onRmw : ∀ {q : Proc} {a : Byte} {fields}, procEvents s.driver.hwPin q = [] →
      ProcPlaces s.cfg q = OneWrite a → throughBank (rmw a fields) s = .next t →
      t.trace = s.trace ++ procEvents s.driver.hwPin q ∧
      ∃ placed, t.calls = placed ++ s.calls ∧ ProcPlaces s.cfg q placed := by
    intro q a fields hq hp hr
    obtain ⟨ht, placed, hc, ho⟩ := rmw_places (throughBank_cases hr).2
    exact quiet hq ht hc (by rw [hp]; exact ho)
  cases p with
  | xchg tx =>
    obtain rfl := xchg_cases h
    exact quiet rfl rfl rfl rfl
  | writeReg a v =>
    obtain rfl := writeReg_cases h
    exact quiet rfl rfl rfl rfl
  | readReg a =>
    simp only [runProc, readReg] at h
    split at h <;> cases h
    exact quiet rfl rfl rfl rfl
  | returnPayload => cases h; exact quiet (placed := []) rfl rfl rfl rfl
  | bankWrite a v => exact quiet rfl (bankWrite_places h).1 (bankWrite_places h).2 rfl
  | getStored a =>
    simp only [runProc, getStored] at h
    split at h <;> cases h
    exact quiet (placed := []) rfl rfl rfl rfl
  | bankRead a =>
    simp only [runProc, bankRead, readReg] at h
    split at h <;> cases h
    exact quiet (placed := [_, _, _, _]) rfl rfl rfl rfl
  | bankStore a => cases h; exact quiet (placed := []) rfl rfl rfl rfl
  | rmw a fields =>
    obtain ⟨ht, placed, hc, ho⟩ := rmw_places h
    exact quiet rfl ht hc ho
  | hardwareEnable =>
    cases h; exact ⟨hardwareEnabled_trace s, [], hardwareEnabled_calls s, rfl⟩
  | hardwareDisable =>
    cases h; exact ⟨hardwareDisabled_trace s, [], hardwareDisabled_calls s, rfl⟩
  | softwareEnable =>
    simp only [runProc, softwareEnable] at h
    obtain ⟨ht, placed, hc, ho⟩ := rmw_places (throughBank_cases h).2
    exact quiet rfl ht hc ho
  | softwareDisable =>
    simp only [runProc, softwareDisable] at h
    obtain ⟨ht, placed, hc, ho⟩ := rmw_places (throughBank_cases h).2
    exact quiet rfl ht hc ho
  | enable =>
    simp only [runProc, enable, softwareEnable] at h
    obtain ⟨ht, placed, hc, ho⟩ := rmw_places (throughBank_cases h).2
    refine ⟨ht.trans (hardwareEnabled_trace s), placed,
      hc.trans (congrArg _ (hardwareEnabled_calls s)), ?_⟩
    rw [(hostOnly_hardwareEnabled s).cfg] at ho
    exact ho
  | disable =>
    simp only [runProc, disable, softwareDisable] at h
    obtain ⟨ht, placed, hc, ho⟩ := rmw_places (throughBank_cases h).2
    refine ⟨ht.trans (hardwareDisabled_trace s), placed,
      hc.trans (congrArg _ (hardwareDisabled_calls s)), ?_⟩
    rw [(hostOnly_hardwareDisabled s).cfg] at ho
    exact ho
  | setup => cases h; exact quiet rfl rfl rfl rfl
  | minimizeMotorCurrent =>
    simp only [runProc, minimizeMotorCurrent] at h
    obtain ⟨ht, hc⟩ := bankWrite_places (throughBank_cases h).2
    exact quiet (placed := [_, _]) rfl ht hc ⟨_, _, rfl⟩
  | setRunCurrent p => exact onRmw rfl rfl h
  | setHoldCurrent p => exact onRmw rfl rfl h
  | setHoldDelay p => exact onRmw rfl rfl h
  | setAllCurrentValues x y z => exact onRmw rfl rfl h
  | setGlobalScaler p =>
    obtain ⟨ht, hc⟩ := bankWrite_places (throughBank_cases h).2
    exact quiet rfl ht hc ⟨_, rfl⟩
  | enableAutomaticCurrentControl => exact onRmw rfl rfl h
  | disableAutomaticCurrentControl => exact onRmw rfl rfl h
  | statusRead => cases h; exact quiet (placed := []) rfl rfl rfl rfl
end Sys2Proof.Machine
end

