-- ==== Sys2Proof/Laws/Runs.lean ====
section
/-! SUPPORT. Runs of the machine, one step at a time, and the exchange a register write ends in. -/

namespace Sys2Proof.Machine

@[simp] theorem runSteps_zero (s : State) : runSteps 0 s = .next s := rfl

/-- A run goes on from the state its first step gives. -/
theorem runSteps_next {s t : State} (k : Nat) (h : step s = .next t) :
    runSteps (k + 1) s = runSteps k t := by
  have h' : Sys2Proof.core.step s = .next t := h
  simp only [runSteps, Host.Core.run, h']
  rfl

/-- Runs compose. -/
theorem runSteps_add {s t : State} (j k : Nat) (h : runSteps j s = .next t) :
    runSteps (j + k) s = runSteps k t := by
  induction j generalizing s with
  | zero => cases h; simp
  | succ j ih =>
    cases hs : step s with
    | next u =>
      rw [runSteps_next j hs] at h
      rw [show j + 1 + k = (j + k) + 1 by omega, runSteps_next (j + k) hs]
      exact ih h
    | fault f =>
      have h' : Sys2Proof.core.step s = .fault f := hs
      simp [runSteps, Host.Core.run, h'] at h
    | refused r =>
      have h' : Sys2Proof.core.step s = .refused r := hs
      simp [runSteps, Host.Core.run, h'] at h

/-- The 7-bit field of an identifier as a register number. -/
@[simp] theorem addrField_toNat (a : Byte) : (addrField a).toNat = a.toNat % 128 := by
  simp [addrField]

/-- The next call is an exchange of an assembled frame, on a reliable bus. -/
theorem step_exchange_reliable {s : State} (h : BusReady s) {f : Frame} {a : BitVec 7} {w : BitVec 1}
    {d : Word} {rest : List Call} (hf : f = mosiFrame a w d)
    (hc : s.calls = exchangeCall f :: rest) :
    step s = .next (completeExchange f (peerReply s.draws s.peer)
      (peerAfter s.draws s.peer a w d) (setCalls rest s)) := by
  subst hf
  rw [step_exchangeCall hc]
  exact exchange_reliable (s := setCalls rest s) h.1 h.2 a w d

/-- The next call is an exchange of an assembled frame, on a malfunctioning bus. -/
theorem step_exchange_garbage {s : State} (hv : s.variant = .spi) (hb : s.bus = .garbage)
    {f : Frame} {a : BitVec 7} {w : BitVec 1} {d : Word} {rest : List Call}
    (hf : f = mosiFrame a w d) (hc : s.calls = exchangeCall f :: rest) :
    step s = .next (completeExchange f (garbageReply s.draws)
      (peerAfterGarbage s.draws s.peer) (setCalls rest s)) := by
  subst hf
  rw [step_exchangeCall hc]
  exact exchange_garbage (s := setCalls rest s) hv hb a w d

/-- The next call is an exchange of an assembled frame, on a bus that completes it: a reply comes back, the
peer's own if the bus is reliable. -/
theorem step_exchange_completes {s : State} (h : BusCompletes s) {f : Frame} {a : BitVec 7}
    {w : BitVec 1} {d : Word} {rest : List Call} (hf : f = mosiFrame a w d)
    (hc : s.calls = exchangeCall f :: rest) :
    ∃ rx p, step s = .next (completeExchange f rx p (setCalls rest s)) ∧
      (s.bus = .reliable → rx = peerReply s.draws s.peer ∧ p = peerAfter s.draws s.peer a w d) := by
  rcases h.2 with hb | hb
  · exact ⟨_, _, step_exchange_reliable ⟨h.1, hb⟩ hf hc, fun _ => ⟨rfl, rfl⟩⟩
  · exact ⟨_, _, step_exchange_garbage h.1 hb hf hc, fun hr => by simp [hb] at hr⟩

/-- `s` after ENC of a WRITE datagram and its exchange on a reliable bus. -/
def wroteRegister (a : Byte) (v : Word) (s : State) : State :=
  completeExchange (encFrame a 1 v) (peerReply s.draws s.peer)
    (peerAfter s.draws s.peer (addrField a) 1 v) (transportEnc a 1 v s)

/-- After ENC and the placing of its exchange, one step on a reliable bus completes the write. -/
theorem step_placedWrite {s : State} (h : BusReady s) (a : Byte) (v : Word) :
    step (pushCalls [exchangeCall (encFrame a 1 v)] (transportEnc a 1 v s)) =
      .next (wroteRegister a v s) :=
  step_exchange_reliable (s := pushCalls [exchangeCall (encFrame a 1 v)] (transportEnc a 1 v s))
    h rfl rfl

/-- A procedure that comes to a WRITE_REG takes two steps on a reliable bus. -/
theorem runSteps_writeReg {s u : State} {p : Proc} {rest : List Call} {a : Byte} {v : Word}
    (hc : s.calls = .proc p :: rest) (hp : runProc p (setCalls rest s) = writeReg a v u)
    (hu : BusReady u) : runSteps 2 s = .next (wroteRegister a v u) := by
  have h1 : step s = .next (pushCalls [exchangeCall (encFrame a 1 v)] (transportEnc a 1 v u)) := by
    rw [step_proc hc, hp]; exact writeReg_spi hu.1 a v
  rw [runSteps_next 1 h1, runSteps_next 0 (step_placedWrite hu a v), runSteps_zero]

/-- What a completed BANK_WRITE leaves. -/
theorem wroteRegister_writtenThrough (s : State) (a : Byte) (v : Word) :
    WrittenThrough s (wroteRegister a v (storeEntry a v s)) a v := by
  refine ⟨by simp [wroteRegister], ?_, ⟨peerReply s.draws s.peer, ?_⟩, ?_, ?_⟩
  · intro b hb; simp [wroteRegister, memory_read_write_other _ _ _ _ hb]
  · simp [wroteRegister, exchangeEvents, shuttle, decStatus]
  · simp [wroteRegister, peerAfter]
  · intro hk
    refine ⟨by simpa [wroteRegister, peerAfter] using regsAfterWrite_read_same hk (addrField a) v, ?_⟩
    intro b hb
    simpa [wroteRegister, peerAfter] using
      regsAfterWrite_read_other hk (addrField a) v b (by simpa using hb)

end Sys2Proof.Machine
end

