-- ==== Sys2Proof/Tests/Slice0.lean ====
section
/-! SUPPORT. The model's own tests: expected results are written out from the spec's encodings and from the
vectors of spec/95_test_vectors.md. The last part holds a witness for every statement with hypotheses. -/

namespace Sys2Proof.Tests

open Sys2Proof Sys2Proof.Machine

/-! ### Sample states -/

/-- The reference peer of programs P1 and P2: register 0x10 holds 0x00061F0A, status byte 0x09 (R98). -/
def samplePeer : Peer where
  kind := .reference
  regs := [(0x10, 0x00061F0A)]
  pend := 0xAAAAAAAA
  received := none
  sampled := none
  st := 0x09

/-- `cache0` of program P4. -/
def sampleCache : Memory := [(0x10, 0x00061F0A), (0x6C, 0x10410153), (0x70, 0xC40C001E)]

/-- A launched machine with a pin, a bound bank, the caches of program P4 and the given calls. -/
def sample (calls : List Call) : State :=
  State.launch Params.defaults .spi (some 5) true sampleCache samplePeer calls

/-- The same without a pin and without a bound bank. -/
def sampleBare (calls : List Call) : State :=
  State.launch Params.defaults .spi none false sampleCache samplePeer calls

/-- The parameter set of vector table V11. -/
def otherParams : Params :=
  { Params.defaults with
    csMin := 1, csMax := 16, hdMin := 2, hdMax := 10, gsMin := 10, gsThreshold := 50, gsMax := 200 }

/-- The reset state with one percent and one code on the operand ports. -/
def withOperands (pct code : Byte) : State :=
  { State.reset with inp := { Inputs.reset with pct := pct, code := code } }

/-- The outputs of an outcome, for tests that look at nothing else. -/
def outputsOf (o : Host.Outcome State Fault Refusal) : Option Outputs :=
  match o with
  | .next t => some t.out
  | .fault _ => none
  | .refused _ => none

/-- The refusal of an outcome, if it is one. -/
def refusalOf (o : Host.Outcome State Fault Refusal) : Option Refusal :=
  match o with
  | .next _ => none
  | .fault _ => none
  | .refused r => some r

/-- One cache entry after an outcome, with the caller's next call. -/
def entryAndCall (a : Nat) (o : Host.Outcome State Fault Refusal) : Option (Option Word × Option Call) :=
  match o with
  | .next t => some (t.cache.read a, t.calls.head?)
  | .fault _ => none
  | .refused _ => none

/-- The instruction an accepted word stands for, if it is accepted. -/
def decoded (c : Code) : Option Instr :=
  match decode c with
  | .ok i => some i
  | .error _ => none

/-- The decoder's name for the bytes it refuses. -/
def decodeErrorOf (c : Code) : Option DecodeError :=
  match decode c with
  | .ok _ => none
  | .error e => some e

/-! ### Well-formedness -/

/-- R57: the one ill-formed instruction. -/
theorem test_reserved_is_ill_formed : Instr.wellFormed .reserved7 = false := by decide

/-- R58: frames have no ill-formed operand; extreme ones are accepted. -/
theorem test_frames_are_well_formed :
    Instr.wellFormed (.write 0x7F 0xFFFFFFFF) = true ∧ Instr.wellFormed (.read 0 0) = true ∧
    Instr.wellFormed (.reply 0xFF 0) = true ∧ Instr.wellFormed .p2gs = true := by decide

/-! ### Decoding (words of 30_encoding.md R56 and of vector tables V1 and V2) -/

theorem test_decode_enc : decoded (.opsel [0b00000000]) = some .enc := by decide
theorem test_decode_dec : decoded (.opsel [0b00000001]) = some .dec := by decide
theorem test_decode_p2cs : decoded (.opsel [0b00000010]) = some .p2cs := by decide
theorem test_decode_cs2p : decoded (.opsel [0b00000011]) = some .cs2p := by decide
theorem test_decode_p2hd : decoded (.opsel [0b00000100]) = some .p2hd := by decide
theorem test_decode_hd2p : decoded (.opsel [0b00000101]) = some .hd2p := by decide
theorem test_decode_p2gs : decoded (.opsel [0b00000110]) = some .p2gs := by decide
theorem test_decode_reserved : decoded (.opsel [0b00000111]) = some .reserved7 := by decide

/-- V1: address bit 6 lands in byte 0 bit 7, payload bit 31 in byte 1 bit 7. -/
theorem test_decode_write :
    decoded (.mosi [0b10000001, 0b10000000, 0, 0, 0b00000001]) = some (.write 0x40 0x80000001) := by
  decide

/-- V1: `FE 00 00 00 00` is the highest address, read. -/
theorem test_decode_read :
    decoded (.mosi [0b11111110, 0, 0, 0, 0]) = some (.read 0x7F 0) := by decide

/-- V2: byte 1 is the most significant payload byte; byte 0 is the status whatever its bits. -/
theorem test_decode_reply :
    decoded (.miso [0b10000000, 0x12, 0x34, 0x56, 0x78]) = some (.reply 0x80 0x12345678) := by decide

/-- V2, last row: an outbound frame read as a reply. -/
theorem test_decode_outbound_as_reply :
    decoded (.miso [0x21, 0x00, 0x06, 0x1F, 0x0A]) = some (.reply 0x21 0x00061F0A) := by decide

/-- R50: four bytes and six bytes are no frame. -/
theorem test_decode_refuses_other_lengths :
    decodeErrorOf (.mosi [0x21, 0, 0, 0]) = some .notAFrame ∧
    decodeErrorOf (.miso [0x21, 0, 0, 0, 0, 0]) = some .notAFrame := by decide

/-- R56: a byte above 7, and two bytes, are no operation select. -/
theorem test_decode_refuses_other_selects :
    decodeErrorOf (.opsel [8]) = some .notAnOpSelect ∧
    decodeErrorOf (.opsel [0, 0]) = some .notAnOpSelect ∧
    decodeErrorOf (.opsel []) = some .notAnOpSelect := by decide

/-- V1: `WRITE 0x6C, 0x10410150` is `D9 10 41 01 50`; `READ 0x6F` is `DE 00 00 00 00`. -/
theorem test_encode_datagrams :
    encode (.write 0x6C 0x10410150) = .mosi [0xD9, 0x10, 0x41, 0x01, 0x50] ∧
    encode (.read 0x6F 0) = .mosi [0xDE, 0, 0, 0, 0] := by decide

/-- V2: the reply `09 00 06 1F 0A`; R56: the selects of DEC and HD2P. -/
theorem test_encode_reply_and_selects :
    encode (.reply 0x09 0x00061F0A) = .miso [0x09, 0x00, 0x06, 0x1F, 0x0A] ∧
    encode .dec = .opsel [1] ∧ encode .hd2p = .opsel [5] := by decide

/-- The table's 40-bit words: WRITE has bit 32 set and READ has it clear (R53). -/
theorem test_table_words :
    decodeTableWord 40 0x0100000000 = some (.write 0 0) ∧ decodeTableWord 40 0 = some (.read 0 0) ∧
    decodeTableWord 8 6 = some .p2gs := by decide

/-! ### The block (vector tables V1 to V11) -/

/-- V1: `ENC 0x12, 1, 0x12345678 -> 25 12 34 56 78`. -/
theorem test_enc_byte_order :
    outputsOf (exec .enc { State.reset with
      inp := { Inputs.reset with addr := 0x12, rw := 1, wdata := 0x12345678 } }) =
    some (.tx ⟨0x25, 0x12, 0x34, 0x56, 0x78⟩) := by decide

/-- V1: `ENC 0xFF, 1, 0xDEADBEEF -> FF DE AD BE EF`; bit 7 of the identifier is dropped (R75). -/
theorem test_enc_drops_bit_seven :
    outputsOf (exec .enc { State.reset with
      inp := { Inputs.reset with addr := 0x90, rw := 0, wdata := 0 } }) =
    some (.tx ⟨0x20, 0, 0, 0, 0⟩) := by decide

/-- V2: `DEC 09 00 06 1F 0A -> 0x09, 0x00061F0A`. -/
theorem test_dec_frame :
    outputsOf (exec .dec { State.reset with
      inp := { Inputs.reset with rx := ⟨0x09, 0x00, 0x06, 0x1F, 0x0A⟩ } }) =
    some (.reply 0x09 0x00061F0A) := by decide

/-- V2: byte 4 is the least significant payload byte. -/
theorem test_dec_last_byte :
    outputsOf (exec .dec { State.reset with inp := { Inputs.reset with rx := ⟨0, 0, 0, 0, 1⟩ } }) =
    some (.reply 0 1) := by decide

/-- V5: `P2CS 50 -> 15` (truncation, not 16) and `P2CS 255 -> 31`. -/
theorem test_p2cs_truncates_and_clamps :
    outputsOf (exec .p2cs (withOperands 50 0)) = some (.result 15) ∧
    outputsOf (exec .p2cs (withOperands 255 0)) = some (.result 31) := by decide

/-- V6: `CS2P 15 -> 48` and `CS2P 32 -> 100`. -/
theorem test_cs2p_inverse_and_clamp :
    outputsOf (exec .cs2p (withOperands 0 15)) = some (.result 48) ∧
    outputsOf (exec .cs2p (withOperands 0 32)) = some (.result 100) := by decide

/-- V7: percents 93 and 94 are on the two sides of a step; 150 is clamped. -/
theorem test_p2hd_step :
    outputsOf (exec .p2hd (withOperands 93 0)) = some (.result 13) ∧
    outputsOf (exec .p2hd (withOperands 94 0)) = some (.result 14) ∧
    outputsOf (exec .p2hd (withOperands 150 0)) = some (.result 15) := by decide

/-- V8: `HD2P 7 -> 46` and `HD2P 16 -> 100`. -/
theorem test_hd2p_inverse_and_clamp :
    outputsOf (exec .hd2p (withOperands 0 7)) = some (.result 46) ∧
    outputsOf (exec .hd2p (withOperands 0 16)) = some (.result 100) := by decide

/-- V10: the dead zone ends between 12 and 13, and the top wraps between 99 and 100. -/
theorem test_p2gs_corrections :
    outputsOf (exec .p2gs (withOperands 12 0)) = some (.result 32) ∧
    outputsOf (exec .p2gs (withOperands 13 0)) = some (.result 33) ∧
    outputsOf (exec .p2gs (withOperands 99 0)) = some (.result 253) ∧
    outputsOf (exec .p2gs (withOperands 100 0)) = some (.result 0) := by decide

/-- V11: the offsets of another parameter set. -/
theorem test_mapper_offsets :
    p2cs otherParams 50 = 8 ∧ cs2p otherParams 0 = 0 ∧ cs2p otherParams 8 = 46 ∧
    p2hd otherParams 13 = 3 ∧ hd2p otherParams 3 = 12 ∧ p2gs otherParams 21 = 50 ∧
    p2gs otherParams 22 = 51 ∧ p2gs otherParams 99 = 198 ∧ p2gs otherParams 100 = 0 := by decide

/-- V4: the offset is added after the division and the input offset subtracted before. -/
theorem test_lmap_offsets : lmap 50 0 100 10 200 = 105 ∧ lmap 8 1 16 0 100 = 46 := by decide

/-- R57: the reserved select is refused. -/
theorem test_reserved_is_refused :
    refusalOf (exec .reserved7 State.reset) = some .reservedOperation := by decide

/-! ### The wire (programs P2 and P5) -/

/-- P2 step 2: the reply to the first READ datagram carries the old pending reply, and register 0x10
becomes the pending one. -/
theorem test_read_exchange :
    ∃ t, exec (.read 0x10 0) (sample []) = .next t ∧ t.out = .reply 0x09 0xAAAAAAAA ∧
      t.lastStatus = 0x09 ∧ t.peer.pend = 0x00061F0A := ⟨_, rfl, by decide⟩

/-- R35, R97: a write at the chip reaches its register, whose content stays open, and so it does after a
read. -/
theorem test_chip_contents_stay_open :
    ∃ t u, exec (.write 0x10 1) State.reset = .next t ∧ t.peer.received = some (0x10, 1) ∧
      t.peer.regs.read 0x10 = none ∧ exec (.read 0x10 0) t = .next u ∧ u.peer.regs.read 0x10 = none :=
  ⟨_, _, rfl, by decide, by decide, rfl, by decide⟩

/-- P5 step 1: a WRITE datagram stores its payload. -/
theorem test_write_exchange :
    ∃ t, exec (.write 0x0B 0x80) (sample []) = .next t ∧ t.peer.regs.read 0x0B = some 0x80 ∧
      t.peer.regs.read 0x10 = some 0x00061F0A := ⟨_, rfl, by decide⟩

/-- R90, P5: the five bytes `17 00 00 00 80` leave in index order inside one bracket. -/
theorem test_write_bytes :
    ∃ t, exec (.write 0x0B 0x80) (sample []) = .next t ∧ t.trace =
      [.beginTransaction, .csAssert, .xfer 0x17 0x09, .xfer 0x00 0xAA, .xfer 0x00 0xAA,
       .xfer 0x00 0xAA, .xfer 0x80 0xAA, .csDeassert, .endTransaction,
       .maskInterrupts, .capture 0x09, .restoreInterrupts] := ⟨_, rfl, by decide⟩

/-- V2: a reply's status is captured and its payload decoded. -/
theorem test_reply_capture :
    ∃ t, exec (.reply 0x80 0x12345678) (sample []) = .next t ∧ t.lastStatus = 0x80 ∧
      t.out = .reply 0x80 0x12345678 := ⟨_, rfl, by decide⟩

/-! ### The context procedures (programs P1, P3, P4; tables V13, V14) -/

/-- V13. -/
theorem test_insert_extract :
    insertField 0xFFFFFFFF ⟨12, 8⟩ 0 = 0xFFFFE0FF ∧ insertField 0 ⟨12, 8⟩ 0x3F = 0x00001F00 ∧
    insertField 0x12345678 ⟨19, 16⟩ 0xF = 0x123F5678 ∧
    insertField 0x00061F0A ⟨12, 8⟩ 15 = 0x00060F0A ∧ extractField 0x00061F0A ⟨12, 8⟩ = 0x1F ∧
    extractField 0x00061F0A ⟨4, 0⟩ = 0x0A ∧ extractField 0x00061F0A ⟨19, 16⟩ = 0x6 := by decide

/-- P1 step 1: `setRunCurrent(50)` leaves 0x00060F0A and sends `21 00 06 0F 0A`. -/
theorem test_set_run_current :
    entryAndCall 0x10 (step (sample [.proc (.setRunCurrent 50)])) =
      some (some 0x00060F0A, some (.word (.mosi [0x21, 0x00, 0x06, 0x0F, 0x0A]))) := by decide

/-- P1: `setAllCurrentValues(50, 25, 100)` sends `21 00 0F 0F 07`. -/
theorem test_set_all_current_values :
    entryAndCall 0x10 (step (sample [.proc (.setAllCurrentValues 50 25 100)])) =
      some (some 0x000F0F07, some (.word (.mosi [0x21, 0x00, 0x0F, 0x0F, 0x07]))) := by decide

/-- P3 step 3: percent 13 writes 0x00000021, `17 00 00 00 21`. -/
theorem test_set_global_scaler :
    entryAndCall 0x0B (step (sample [.proc (.setGlobalScaler 13)])) =
      some (some 0x21, some (.word (.mosi [0x17, 0, 0, 0, 0x21]))) := by decide

/-- P4 steps 1, 2, 4 and 5: the word each procedure writes first. -/
theorem test_bring_up_writes :
    entryAndCall 0x6C (step (sample [.proc .disable])) =
      some (some 0x10410150, some (.word (.mosi [0xD9, 0x10, 0x41, 0x01, 0x50]))) ∧
    entryAndCall 0x0B (step (sample [.proc .minimizeMotorCurrent])) =
      some (some 0x20, some (.word (.mosi [0x17, 0, 0, 0, 0x20]))) ∧
    entryAndCall 0x70 (step (sample [.proc .disableAutomaticCurrentControl])) =
      some (some 0xC400001E, some (.word (.mosi [0xE1, 0xC4, 0x00, 0x00, 0x1E]))) := by decide

/-- P4 steps 5 and 6: the pin is driven low by `enable` and high by `disable`. -/
theorem test_pin_levels :
    ∃ t u, step (sample [.proc .enable]) = .next t ∧ t.trace = [.pinWrite 5 .low] ∧
      step (sample [.proc .disable]) = .next u ∧ u.trace = [.pinWrite 5 .high] ∧
      u.driver.pinLevel = .high ∧ u.driver.hwEnabled = false :=
  ⟨_, _, rfl, by decide, rfl, by decide⟩

/-- V14: GET_STORED of an entry absent from the cache is refused, of a present one it is not. -/
theorem test_get_stored :
    refusalOf (step (sample [.proc (.getStored 0x0B)])) = some .cacheEntryUnset ∧
    refusalOf (step (sample [.proc (.getStored 0x10)])) = none := by decide

/-! ### Witnesses: a state and operands that meet each statement's hypotheses -/

/-- CodecRoundTripsAndIsBijective: both ends of the 7-bit range. -/
theorem witness_codec_round_trips : (0 : Byte).toNat < 128 ∧ (0x7F : Byte).toNat < 128 := by decide

/-- LinearMapIsBoundedAndMonotone: an inner point and both ends; the last clause at the upper end. -/
theorem witness_linear_map :
    ((0 ≤ 50 ∧ 50 ≤ 100) ∧ (0 ≤ 0 ∧ 100 ≤ 100) ∧ 0 < 100 ∧ 0 < 31) ∧ lmap 50 0 100 0 31 = 15 ∧
    lmap 99 0 100 0 31 ≠ 31 ∧ lmap 100 0 100 0 31 = 31 := by decide

/-- The statements about the mapper: reset's parameters and those of table V11 are within R5. -/
theorem witness_mapper_valid :
    State.reset.cfg.MapperValid ∧ otherParams.MapperValid ∧ otherParams.Valid := by decide

/-- P2cs and P2hd: the clauses at percent 0, 3, 99 and 100. -/
theorem witness_p2cs_clauses :
    (withOperands 0 0).cfg.MapperValid ∧ (withOperands 0 0).inp.pct.toNat = 0 ∧
    (withOperands 3 0).cfg = Params.defaults ∧ (withOperands 3 0).inp.pct.toNat ≤ 3 ∧
    ¬ 100 ≤ (withOperands 99 0).inp.pct.toNat ∧ 100 ≤ (withOperands 100 0).inp.pct.toNat := by decide

/-- Cs2p and Hd2p: codes at the minimum, at the maximum, and above it. -/
theorem witness_cs2p_clauses :
    (withOperands 0 0).inp.code.toNat = (withOperands 0 0).cfg.csMin ∧
    (withOperands 0 31).cfg.csMax ≤ (withOperands 0 31).inp.code.toNat ∧
    (withOperands 0 255).cfg.csMax ≤ (withOperands 0 255).inp.code.toNat := by decide

/-- P2gs: the three exclusive clauses at percent 12 and 13, 99 and 100. -/
theorem witness_p2gs_clauses :
    gsLinear Params.defaults 12 < Params.defaults.gsThreshold ∧
    (Params.defaults.gsThreshold ≤ gsLinear Params.defaults 13 ∧
      gsLinear Params.defaults 13 < Params.defaults.gsMax) ∧
    gsLinear Params.defaults 99 < Params.defaults.gsMax ∧
    (Params.defaults.gsThreshold ≤ gsLinear Params.defaults 100 ∧
      Params.defaults.gsMax ≤ gsLinear Params.defaults 100) := by decide

/-- PercentsAboveTheRangeActAsOneHundred, RoundTripLosesAtMostOneUnit, ShapeOfTheThreeMaps: percents on the
two sides of 100 and of 99. -/
theorem witness_percents :
    (100 : Byte).toNat ≤ 100 ∧ 100 < (101 : Byte).toNat ∧ 100 < (255 : Byte).toNat ∧
    (100 ≤ (100 : Byte).toNat ∧ 100 ≤ (255 : Byte).toNat) ∧
    ((13 : Byte).toNat ≤ (99 : Byte).toNat ∧ (99 : Byte).toNat ≤ 99) ∧
    gsLinear Params.defaults 0 < Params.defaults.gsThreshold ∧
    (cs2p Params.defaults (p2cs Params.defaults 100)).toNat = 100 := by decide

/-- BlockOperationsHoldNoState: two different states with equal inputs. -/
theorem witness_block_operations :
    blockOp .enc = true ∧ blockOp .p2gs = true ∧ (sample []).cfg = (sample [.proc .enable]).cfg ∧
    (sample []).inp = (sample [.proc .enable]).inp ∧
    (sample []).calls ≠ (sample [.proc .enable]).calls := by decide

/-- OnlyTheReservedSelectIsRefused: the two clauses at codes 7 and 6. -/
theorem witness_reserved_select :
    (sample [.word (.opsel [7])]).calls = .word (.opsel [(7 : BitVec 3).setWidth 8]) :: [] ∧
    (sample [.word (.opsel [6])]).calls = .word (.opsel [(6 : BitVec 3).setWidth 8]) :: [] ∧
    (6 : BitVec 3) ≠ 7 ∧ refusalOf (step (sample [.word (.opsel [7])])) = some .reservedOperation ∧
    outputsOf (step (sample [.word (.opsel [6])])) = some (.result 32) := by decide

/-- The statements over a working bus: reset itself, with the chip, and a launch with the reference peer,
which knows a register. -/
theorem witness_bus_ready :
    BusReady State.reset ∧ BusReady (sample []) ∧ (sample []).peer.kind = .reference ∧
    (sample []).peer.regs.read 0x10 = some 0x00061F0A ∧ State.reset.peer.kind = .chip := by decide

/-- ReplyFrameIsDecodedAndCaptured, MalfunctioningBusStillCompletes and
DatagramsStopOnlyWithoutAWorkingTransport: a state for each condition of the bus. -/
theorem witness_bus_conditions :
    ({ State.reset with bus := .garbage }.variant = .spi ∧
      { State.reset with bus := .garbage }.bus = .garbage) ∧
    refusalOf (exec (.read 0 0) { State.reset with variant := .uart }) = some .uartNotImplemented ∧
    refusalOf (exec (.write 0 0) { State.reset with bus := .notConfigured }) =
      some .transportNotConfigured := by decide

/-- DatagramsStopOnlyWithoutAWorkingTransport and OnlyAHangingBusLeavesTheMachineStuck: the one fault. -/
theorem witness_hanging_bus :
    step { State.reset with bus := .hangs, calls := [.word (.mosi [0x20, 0, 0, 0, 0])] } =
      .fault .busNeverCompletes ∧ State.reset.bus ≠ .hangs := ⟨rfl, by decide⟩

/-- EveryAcceptedWordIsAnEncoding, StepExecutesTheDecodedInstruction: an accepted word as the next call. -/
theorem witness_accepted_word :
    (sample [.word (.mosi [0x20, 0, 0, 0, 0])]).calls = .word (.mosi [0x20, 0, 0, 0, 0]) :: [] ∧
    decode (.mosi [0x20, 0, 0, 0, 0]) = .ok (.read 0x10 0) := ⟨rfl, rfl⟩

/-- EveryFiveBytesAreADatagramAndAReply: the flag set and the flag clear. -/
theorem witness_flag : (0x21 : Byte).toNat % 2 = 1 ∧ (0x20 : Byte).toNat % 2 = 0 := by decide

/-- OtherLengthsAreRefused: no byte, four bytes, six bytes, in either direction. -/
theorem witness_other_lengths :
    ([] : List Byte).length ≠ 5 ∧ ([0x21, 0, 0, 0] : List Byte).length ≠ 5 ∧
    ([0, 0, 0, 0, 0, 0] : List Byte).length ≠ 5 ∧
    refusalOf (step (sample [.word (.mosi [0x21, 0, 0, 0])])) = some .notAFrame ∧
    refusalOf (step (sample [.word (.miso [])])) = some .notAFrame := by decide

/-- StepFollowsTheCallersProgram: a procedure, a port change, and no call. -/
theorem witness_program :
    (sample [.proc .enable]).calls = .proc .enable :: [] ∧
    (sample [.drive Inputs.reset]).calls = .drive Inputs.reset :: [] ∧ (sample []).calls = [] := by
  decide

/-- PlacedTableWordIsExecutedNext: a table word the decoder accepts, run as the first after reset. -/
theorem witness_table_word :
    decodeTableWord 8 6 = some .p2gs ∧
    outputsOf (step (State.reset.withFetchWord 8 6)) = some (.result 32) := by decide

/-- The five statements that every step keeps something: a launched state that meets all three invariants,
and its next state. -/
theorem witness_invariants :
    MapsWf (sample [.proc .enable]) ∧ Settled (sample [.proc .enable]) ∧
    StatusCurrent (sample [.proc .enable]) ∧ (sample [.proc .enable]).cfg.Valid ∧
    ∃ t, step (sample [.proc .enable]) = .next t :=
  ⟨by decide, by decide, by decide, by decide, _, rfl⟩

/-- CacheChangesOnlyByWriteThroughOrReadBack: a write-through and a read-back that change an entry. -/
theorem witness_cache_changes :
    (sample [.proc (.bankWrite 0x10 1)]).cache.read 0x10 ≠ some 1 ∧
    entryAndCall 0x10 (step (sample [.proc (.bankWrite 0x10 1)])) =
      some (some 1, some (.word (.mosi [0x21, 0, 0, 0, 1]))) ∧
    entryAndCall 0x0B (step (sample [.proc (.bankStore 0x0B)])) = some (some 0, none) := by decide

/-- InstructionsKeepCacheDriverProgramAndOperands: an instruction that completes and drives an output. -/
theorem witness_instruction_completes :
    ∃ t, exec .p2gs (sample []) = .next t ∧ blockOp .p2gs = true ∧ t.out = .result 32 :=
  ⟨_, rfl, by decide⟩

/-- WriteRegIsOneExchange, ReadRegIsTwoIdenticalExchanges, BankWriteIsWriteThrough (also on a malfunctioning
bus), BankReadStoresWhatItReads. -/
theorem witness_register_access :
    BusReady (sample [.proc (.writeReg 0x0B 1)]) ∧ BusReady (sample [.proc (.readReg 0xFF)]) ∧
    (sample [.proc (.writeReg 0x0B 1)]).calls = .proc (.writeReg 0x0B 1) :: [] ∧
    (sample [.proc (.readReg 0xFF)]).calls = .proc (.readReg 0xFF) :: [] ∧
    (sample [.proc (.bankWrite 0 1)]).calls = .proc (.bankWrite 0 1) :: [] ∧
    (sample [.proc (.bankRead 0)]).calls = .proc (.bankRead 0) :: [] ∧
    BusCompletes (sample [.proc (.bankRead 0)]) ∧
    BusCompletes { sample [.proc (.writeReg 0x0B 1)] with bus := .garbage } ∧
    BusCompletes { sample [.proc (.readReg 0xFF)] with bus := .garbage } ∧
    BusCompletes { sample [.proc (.bankRead 0)] with bus := .garbage } ∧
    { sample [.proc (.bankWrite 0 1)] with bus := .garbage }.bus = .garbage := by decide

/-- StepOnlyAppendsToTheRecord: no call, a port change, a frame and a procedure with a pin, each answering a
next state. -/
theorem witness_record :
    ((sample []).calls = [] ∧ ∃ t, step (sample []) = .next t) ∧
    (∃ t, step (sample [.drive Inputs.reset, .proc .enable]) = .next t ∧ t.trace = [] ∧
      t.calls = [.proc .enable]) ∧
    (∃ t, step (sample [.word (.miso [9, 0, 0, 0, 0])]) = .next t ∧
      t.trace = [.maskInterrupts, .capture 9, .restoreInterrupts]) ∧
    ∃ t, step (sample [.proc .hardwareDisable]) = .next t ∧ t.trace = [.pinWrite 5 .high] :=
  ⟨⟨rfl, _, rfl⟩, ⟨_, rfl, by decide, by decide⟩, ⟨_, rfl, by decide⟩, _, rfl, by decide⟩

/-- UartVariantIsRefused: the procedures, and a reply. -/
theorem witness_uart :
    { sample [.proc (.readReg 0)] with variant := .uart }.variant = .uart ∧
    refusalOf (step { sample [.proc (.writeReg 0 1)] with variant := .uart }) =
      some .uartNotImplemented ∧
    refusalOf (step { sample [.proc (.readReg 0)] with variant := .uart }) =
      some .uartNotImplemented ∧
    refusalOf (step { sample [.proc (.bankRead 0)] with variant := .uart }) =
      some .uartNotImplemented ∧
    refusalOf (step { sample [.proc (.xchg ⟨0x20, 0, 0, 0, 0⟩)] with variant := .uart }) =
      some .uartNotImplemented ∧
    refusalOf (exec (.reply 0 0) { State.reset with variant := .uart }) =
      some .uartNotImplemented := by decide

/-- GetStoredReturnsTheCachedValue, RmwMakesOneBusWrite: a set entry and an unset one. -/
theorem witness_cache_entries :
    (sample [.proc (.getStored 0x10)]).cache.read 0x10 = some 0x00061F0A ∧
    (sample [.proc (.getStored 0x0B)]).cache.read 0x0B = none ∧
    BusReady (sample [.proc (.rmw 0x10 [(⟨12, 8⟩, 1)])]) ∧
    (sample [.proc (.rmw 0x10 [(⟨12, 8⟩, 1)])]).calls = .proc (.rmw 0x10 [(⟨12, 8⟩, 1)]) :: [] := by
  decide

/-- InsertedFieldsReadBackAndSpareSiblings: neighbouring fields, and the whole word. -/
theorem witness_fields :
    FieldRange.Inside ⟨12, 8⟩ ∧ FieldRange.Inside ⟨31, 0⟩ ∧ FieldRange.Inside ⟨13, 13⟩ ∧
    FieldRange.Disjoint ⟨12, 8⟩ ⟨13, 13⟩ ∧ FieldRange.Disjoint ⟨12, 8⟩ ⟨4, 0⟩ := by decide

/-- HardwareStageDrivesThePin: with a pin and without one. -/
theorem witness_pins :
    (sample [.proc .hardwareEnable]).driver.hwPin = some 5 ∧
    (sampleBare [.proc .hardwareEnable]).driver.hwPin = none ∧
    (sample [.proc .hardwareDisable]).calls = .proc .hardwareDisable :: [] ∧
    (sampleBare [.proc .hardwareDisable]).driver.hwPin = none := by decide

/-- SoftwareStageWritesTheOffTime, EnableArmsAndDisableDisarms: the launched Driver with a chopper-config
entry. -/
theorem witness_enable :
    DriverReady (sample [.proc .enable, .proc .disable, .proc .disable]) ∧
    (sample [.proc .softwareEnable]).cache.read (sample []).cfg.aChopconf.toNat = some 0x10410153 ∧
    (sample [.proc .softwareDisable]).calls = .proc .softwareDisable :: [] ∧
    (sample [.proc .enable, .proc .disable, .proc .disable]).calls =
      .proc .enable :: .proc .disable :: .proc .disable :: [] := by decide

/-- MinimizeMotorCurrentWritesTwoRegisters and the setters: the launched Driver with an `IHOLD_IRUN` entry. -/
theorem witness_setters :
    DriverReady (sample [.proc .minimizeMotorCurrent]) ∧
    (sample [.proc .minimizeMotorCurrent]).cfg.AddressesDistinct ∧
    (sample [.proc (.setRunCurrent 50)]).cache.read (sample []).cfg.aIholdIrun.toNat =
      some 0x00061F0A ∧
    (sample [.proc (.setHoldCurrent 25)]).calls = .proc (.setHoldCurrent 25) :: [] ∧
    (sample [.proc (.setHoldDelay 100)]).calls = .proc (.setHoldDelay 100) :: [] ∧
    (sample [.proc (.setAllCurrentValues 50 25 100)]).calls =
      .proc (.setAllCurrentValues 50 25 100) :: [] ∧
    (sample [.proc (.setGlobalScaler 100)]).calls = .proc (.setGlobalScaler 100) :: [] ∧
    100 ≤ (100 : Byte).toNat := by decide

/-- SetupLeavesTheDriveDisabledAtMinimumCurrent: with a pin, and without one and before a bank is bound. -/
theorem witness_setup :
    BusReady (sample [.proc .setup]) ∧ (sample [.proc .setup]).cfg.Valid ∧
    (sample [.proc .setup]).cfg.AddressesDistinct ∧
    (sample [.proc .setup]).cache.read (sample []).cfg.aChopconf.toNat = some 0x10410153 ∧
    (sample [.proc .setup]).cache.read (sample []).cfg.aIholdIrun.toNat = some 0x00061F0A ∧
    (sample [.proc .setup]).cache.read (sample []).cfg.aPwmconf.toNat = some 0xC40C001E ∧
    (sample [.proc .setup]).calls = .proc .setup :: [] ∧
    BusReady (sampleBare [.proc .setup]) ∧ (sampleBare [.proc .setup]).driver.bound = false := by
  decide

/-- AutomaticControlTogglesBothFlags: the launched Driver with a PWM-config entry. -/
theorem witness_automatic_control :
    DriverReady (sample [.proc .enableAutomaticCurrentControl]) ∧
    (sample [.proc .enableAutomaticCurrentControl]).cache.read (sample []).cfg.aPwmconf.toNat =
      some 0xC40C001E ∧
    (sample [.proc .disableAutomaticCurrentControl]).calls =
      .proc .disableAutomaticCurrentControl :: [] := by decide

/-- SettersDependOnlyOnArgumentAndCache: two launches that differ in the pin and the peer. -/
theorem witness_setter_pair :
    (sample []).cfg = { sampleBare [] with driver := { (sampleBare []).driver with bound := true } }.cfg ∧
    (sample []).cache = (sampleBare []).cache ∧ (sample []).driver.bound = true ∧
    (sample []).driver.hwPin ≠ (sampleBare []).driver.hwPin ∧
    (sample []).variant = .spi ∧ (sampleBare []).variant = .spi := by decide

/-- DriverIsRefusedBeforeSetup: reset has no bank bound. -/
theorem witness_unbound :
    State.reset.driver.bound = false ∧
    refusalOf (runProc (.setAllCurrentValues 50 25 100) State.reset) = some .bankNotBound ∧
    refusalOf (runProc (.setRunCurrent 50) State.reset) = some .bankNotBound := by decide

end Sys2Proof.Tests
end

/-! PROOFS. The family of spec/10_state.md: what every step keeps, what an instruction leaves unchanged, how a step
follows the caller's program, and the state at reset. -/

namespace Sys2Proof.Machine

/-! ### A step as a chain of updates

Every rule about all steps is proved once per update of the state, and no rule looks into a procedure. -/

/-- One update of the state that an instruction or a procedure makes. -/
inductive Update (s : State) : State → Prop
  | host {t : State} (h : HostOnly s t) : Update s t
  | drive (inp : Inputs) : Update s (drivePorts inp s)
  | select (op : BitVec 3) : Update s (selectOp op (blockOutputs s.cfg op s.inp) s)
  | encode (a : Byte) (w : BitVec 1) (d : Word) : Update s (transportEnc a w d s)
  | store (a : Byte) (v : Word) : Update s (storeEntry a v s)
  | receive (rx : Frame) : Update s (receiveReply rx s)
  | exchange {a : BitVec 7} {w : BitVec 1} {d : Word} {t : State} (h : exchange a w d s = .next t) :
      Update s t

/-- The state reached by updates in a row. -/
abbrev Updates : State → State → Prop := Relation.ReflTransGen Update

/-- An instruction makes one update. -/
theorem exec_update {i : Instr} {s t : State} (h : exec i s = .next t) : Update s t := by
  rcases exec_cases h with ⟨op, rfl⟩ | ⟨a, w, d, hx⟩ | ⟨st, d, rfl⟩
  · exact .select op
  · exact .exchange hx
  · exact .receive _

/-- The value a procedure returns is the model's own record. -/
theorem HostOnly.returned {s : State} (v : Word) : HostOnly s (returnValue v s) :=
  .quiet rfl rfl rfl rfl rfl rfl rfl rfl rfl rfl rfl rfl

/-- ENC evaluated, and calls put in front. -/
theorem updates_encode_push (a : Byte) (w : BitVec 1) (d : Word) (cs : List Call) (s : State) :
    Updates s (pushCalls cs (transportEnc a w d s)) :=
  .tail (.single (.encode a w d)) (.host (.pushed cs))

/-- A procedure makes updates in a row. -/
theorem runProc_updates {p : Proc} {s t : State} (h : runProc p s = .next t) : Updates s t := by
  rcases runProc_cases h with hh | ⟨u, a, w, d, cs, hu, rfl⟩ | ⟨u, a, v, hu, rfl⟩ | ⟨a, -, rfl⟩
  · exact .single (.host hh)
  · exact .head (.host hu) (updates_encode_push a w d cs u)
  · exact .head (.host hu) (.head (.store a v) (updates_encode_push a 1 v _ _))
  · exact .head (.store a _) (.single (.host (.returned _)))

/-- A step makes updates in a row. -/
theorem step_updates {s t : State} (h : step s = .next t) : Updates s t := by
  rcases step_cases h with ⟨-, rfl⟩ | ⟨inp, rest, -, rfl⟩ | ⟨p, rest, -, hp⟩ | ⟨c, i, rest, -, -, hi⟩
  · exact .refl
  · exact .head (.host (.withCalls rest)) (.single (.drive inp))
  · exact .head (.host (.withCalls rest)) (runProc_updates hp)
  · exact .head (.host (.withCalls rest)) (.single (exec_update hi))

/-- What every update keeps, every step keeps. -/
theorem step_keeps {I : State → Prop} (keeps : ∀ {u v : State}, Update u v → I u → I v)
    {s t : State} (hs : I s) (h : step s = .next t) : I t := by
  have hchain : Updates s t := step_updates h
  clear h
  induction hchain with
  | refl => exact hs
  | tail _ huv ih => exact keeps huv ih

/-! ### What an exchange does to the peer -/

@[simp] theorem peerAfter_kind (n : Nat) (p : Peer) (a : BitVec 7) (w : BitVec 1) (d : Word) :
    (peerAfter n p a w d).kind = p.kind := by
  unfold peerAfter
  split <;> rfl

@[simp] theorem peerAfter_st (n : Nat) (p : Peer) (a : BitVec 7) (w : BitVec 1) (d : Word) :
    (peerAfter n p a w d).st = p.st := by
  unfold peerAfter
  split <;> rfl

/-- A datagram of either kind keeps the peer's registers canonical. -/
theorem peerAfter_regs_wf {p : Peer} (h : p.regs.wf 128 = true) (n : Nat) (a : BitVec 7)
    (w : BitVec 1) (d : Word) : (peerAfter n p a w d).regs.wf 128 = true := by
  unfold peerAfter
  split
  · exact regsAfterWrite_wf h a d
  · exact regsAfterRead_wf h a _

/-! ### The register maps (R17, R30) -/

/-- Every update keeps both register maps canonical: only an entry of the cache is stored, at one of 256
identifiers, and only an exchange touches the peer. -/
theorem Update.mapsWf {s t : State} (h : Update s t) (hs : MapsWf s) : MapsWf t := by
  obtain ⟨hcache, hpeer⟩ := hs
  cases h with
  | host h => exact ⟨h.cache ▸ hcache, h.peer ▸ hpeer⟩
  | store a v => exact ⟨memory_wf_write 256 s.cache a.toNat v hcache a.isLt, hpeer⟩
  | exchange h =>
    obtain ⟨rx, p, rfl, ⟨-, rfl⟩ | ⟨-, rfl⟩⟩ := exchange_cases h
    · exact ⟨hcache, peerAfter_regs_wf hpeer _ _ _ _⟩
    · exact ⟨hcache, memory_wf_nil 128⟩
  | drive _ | select _ | encode _ _ _ | receive _ => exact ⟨hcache, hpeer⟩

/-- Settles O32: an invariant of every update. -/
theorem stepKeepsRegisterMapsCanonical : Obligations.StepKeepsRegisterMapsCanonical :=
  fun _ _ hs h => step_keeps Update.mapsWf hs h

/-! ### The outputs (R10, R22, R200) -/

/-- Every update keeps the outputs the function of the present inputs: whatever moves the selection or the
operands drives the outputs anew. -/
theorem Update.settled {s t : State} (h : Update s t) (hs : Settled s) : Settled t := by
  cases h with
  | host h => rw [Settled, h.out, h.cfg, h.op, h.inp]; exact hs
  | store a v => exact hs
  | exchange h => obtain ⟨rx, p, rfl, -⟩ := exchange_cases h; rfl
  | drive _ | select _ | encode _ _ _ | receive _ => rfl

/-- Settles O33: an invariant of every update. -/
theorem stepKeepsOutputsAFunctionOfInputs : Obligations.StepKeepsOutputsAFunctionOfInputs :=
  fun _ _ hs h => step_keeps Update.settled hs h

/-! ### The status of the last exchange (R16, R91) -/

/-- Events that assign no status leave the last capture as it is. -/
theorem lastCapture_append_quiet (trace events : List BusEvent)
    (h : ∀ e ∈ events, quietEvent e = true) : lastCapture (trace ++ events) = lastCapture trace := by
  induction events generalizing trace with
  | nil => rw [List.append_nil]
  | cons e es ih =>
    obtain ⟨he, hes⟩ := List.forall_mem_cons.1 h
    have hone : lastCapture (trace ++ [e]) = lastCapture trace := by
      cases e <;> simp_all [lastCapture, quietEvent]
    rw [List.append_cons, ih _ hes, hone]

/-- After the events of a capture the last capture is that one. -/
theorem lastCapture_append_capture (trace : List BusEvent) (status : Byte) :
    lastCapture (trace ++ [.maskInterrupts, .capture status, .restoreInterrupts]) = some status := by
  simp [lastCapture]

/-- Every update keeps `last_status` that of the most recent capture: only a reply assigns it, and its
capture is then the last one of the record. -/
theorem Update.statusCurrent {s t : State} (h : Update s t) (hs : StatusCurrent s) :
    StatusCurrent t := by
  cases h with
  | host h =>
    obtain ⟨events, htrace, hquiet⟩ := h.trace
    rw [StatusCurrent, htrace, lastCapture_append_quiet _ _ hquiet, h.lastStatus]
    exact hs
  | receive rx => exact .inr (lastCapture_append_capture _ _)
  | exchange h =>
    obtain ⟨rx, p, rfl, -⟩ := exchange_cases h
    exact .inr (lastCapture_append_capture _ _)
  | drive _ | select _ | encode _ _ _ | store _ _ => exact hs

/-- Settles O34: an invariant of every update. -/
theorem stepKeepsStatusThatOfTheLastExchange : Obligations.StepKeepsStatusThatOfTheLastExchange :=
  fun _ _ hs h => step_keeps Update.statusCurrent hs h

/-! ### The launch arguments (R5, R6, R21, R99) -/

/-- No update changes a launch argument: an exchange replaces the peer by one of the same kind and
reference status, and no other update touches one of them. -/
theorem Update.sameLaunch {s t : State} (h : Update s t) : SameLaunch s t := by
  cases h with
  | host h =>
    exact ⟨h.cfg, h.variant, h.bus, h.hwPin, congrArg Peer.kind h.peer, congrArg Peer.st h.peer⟩
  | exchange h =>
    obtain ⟨rx, p, rfl, ⟨-, rfl⟩ | ⟨-, rfl⟩⟩ := exchange_cases h
    · exact ⟨rfl, rfl, rfl, rfl, peerAfter_kind _ _ _ _ _, peerAfter_st _ _ _ _ _⟩
    · exact ⟨rfl, rfl, rfl, rfl, rfl, rfl⟩
  | drive _ | select _ | encode _ _ _ | store _ _ | receive _ => exact ⟨rfl, rfl, rfl, rfl, rfl, rfl⟩

theorem SameLaunch.trans {s t u : State} (h : SameLaunch s t) (k : SameLaunch t u) :
    SameLaunch s u := by
  obtain ⟨hcfg, hvariant, hbus, hpin, hkind, hst⟩ := h
  obtain ⟨kcfg, kvariant, kbus, kpin, kkind, kst⟩ := k
  exact ⟨kcfg.trans hcfg, kvariant.trans hvariant, kbus.trans hbus, kpin.trans hpin,
    kkind.trans hkind, kst.trans hst⟩

/-- No step changes a launch argument. -/
theorem step_sameLaunch {s t : State} (h : step s = .next t) : SameLaunch s t :=
  step_keeps (I := SameLaunch s) (fun huv hsu => hsu.trans huv.sameLaunch)
    ⟨rfl, rfl, rfl, rfl, rfl, rfl⟩ h

/-- Settles O35: no update changes a launch argument, and the constraints speak of the parameters alone. -/
theorem stepKeepsLaunchArguments : Obligations.StepKeepsLaunchArguments := by
  intro s t h
  have hsame : SameLaunch s t := step_sameLaunch h
  have hcfg : t.cfg = s.cfg := hsame.1
  exact ⟨hsame, fun hvalid => hcfg ▸ hvalid⟩

/-! ### The block's operations (R10, R13) -/

/-- An operation of the block selects its code and drives the outputs that code has for the present inputs,
in every state. -/
theorem exec_blockOp {i : Instr} (h : blockOp i = true) :
    ∃ op, ∀ s, exec i s = .next (selectOp op (blockOutputs s.cfg op s.inp) s) := by
  cases i with
  | enc => exact ⟨0, fun _ => rfl⟩
  | dec => exact ⟨1, fun _ => rfl⟩
  | p2cs => exact ⟨2, fun _ => rfl⟩
  | cs2p => exact ⟨3, fun _ => rfl⟩
  | p2hd => exact ⟨4, fun _ => rfl⟩
  | hd2p => exact ⟨5, fun _ => rfl⟩
  | p2gs => exact ⟨6, fun _ => rfl⟩
  | reserved7 | write _ _ | read _ _ | reply _ _ => cases h

/-- Settles O14: each operation is a function of the parameters and the inputs, and changes neither. -/
theorem blockOperationsHoldNoState : Obligations.BlockOperationsHoldNoState := by
  intro i j s t hi hj hcfg hinp
  obtain ⟨opi, hexeci⟩ := exec_blockOp hi
  obtain ⟨opj, hexecj⟩ := exec_blockOp hj
  refine ⟨_, _, _, _, hexeci s, hexeci t, ?_, hexecj s, hexeci _, ?_⟩
  · simp only [selectOp_out, hcfg, hinp]
  · simp only [selectOp_out, selectOp_cfg, selectOp_inp]

/-- Settles O38: an instruction selects an operation, completes an exchange or takes a reply in, and none
of these touches the caller's side. -/
theorem instructionsKeepCacheDriverProgramAndOperands :
    Obligations.InstructionsKeepCacheDriverProgramAndOperands := by
  intro i s t h
  have hlaunch : SameLaunch s t := (exec_update h).sameLaunch
  have hblock : blockOp i = true → t = { s with op := t.op, out := t.out } := by
    intro hi
    obtain ⟨op, hexec⟩ := exec_blockOp hi
    rw [hexec s] at h
    cases h
    rfl
  rcases exec_cases h with ⟨op, rfl⟩ | ⟨a, w, d, hx⟩ | ⟨st, d, rfl⟩
  · exact ⟨rfl, rfl, rfl, rfl, rfl, hlaunch, rfl, hblock⟩
  · obtain ⟨rx, p, rfl, -⟩ := exchange_cases hx
    exact ⟨rfl, rfl, rfl, rfl, rfl, hlaunch, rfl, hblock⟩
  · exact ⟨rfl, rfl, rfl, rfl, rfl, hlaunch, rfl, hblock⟩

/-! ### The step and the caller's program (R14, R37) -/

/-- With no call waiting a step changes nothing. -/
theorem step_idle {s : State} (hc : s.calls = []) : step s = .next s := by
  simp [step, takeCall, hc]

/-- The next call drives the operand ports. -/
theorem step_drive {s : State} {inp : Inputs} {rest : List Call} (hc : s.calls = .drive inp :: rest) :
    step s = .next (drivePorts inp (setCalls rest s)) := by
  simp [step, takeCall, hc]

/-- A call put in front and taken again leaves the state as it was. -/
theorem setCalls_pushCalls (cs : List Call) (s : State) :
    setCalls s.calls (pushCalls cs s) = s := rfl

/-- Settles O28, by the law of a step whose next call is a word. -/
theorem stepExecutesTheDecodedInstruction : Obligations.StepExecutesTheDecodedInstruction :=
  fun _ _ _ _ hc hd => step_word hc hd

/-- Settles O29, by the laws of a step for the other kinds of call and for none. -/
theorem stepFollowsTheCallersProgram : Obligations.StepFollowsTheCallersProgram :=
  ⟨fun _ _ _ hc => step_proc hc, fun _ _ _ hc => step_drive hc, fun _ hc => step_idle hc⟩

/-- A word of the table stands for an instruction exactly when the decoder gives that instruction. -/
theorem decodeTableWord_eq_some {nbits w : Nat} {i : Instr} :
    decodeTableWord nbits w = some i ↔ decode (tableCode nbits w) = .ok i := by
  unfold decodeTableWord
  cases decode (tableCode nbits w) <;> simp

/-- Settles O30: the placed word is the next call, and taking it gives the state back. -/
theorem placedTableWordIsExecutedNext : Obligations.PlacedTableWordIsExecutedNext := by
  intro s nbits w i hw
  have hcalls : (s.withFetchWord nbits w).calls = .word (tableCode nbits w) :: s.calls := rfl
  rw [step_word hcalls (decodeTableWord_eq_some.1 hw)]
  exact congrArg (exec i) (setCalls_pushCalls _ s)

/-- The interrupt reader sees `last_status`, and the rest of the state is as before the interrupt. -/
theorem step_interruptArrives (s : State) :
    step (interruptArrives s) = .next { s with irqSeen := some s.lastStatus } := by
  have hcalls : (interruptArrives s).calls = .proc .statusRead :: s.calls := rfl
  rw [step_proc hcalls]
  rfl

/-- Settles O31: the reader sees `last_status`, which a completed exchange sets to its reply's status. -/
theorem interruptReaderSeesTheLastStatus : Obligations.InterruptReaderSeesTheLastStatus := by
  refine ⟨step_interruptArrives, ?_⟩
  intro s a d ⟨hvariant, hbus⟩
  have hread : exec (.read a d) s = exchange a 0 d s := rfl
  exact ⟨_, _, _, hread.trans (exchange_reliable hvariant hbus a 0 d), rfl,
    step_interruptArrives _, rfl⟩

/-! ### Reset (R22, R24, R25, R200) -/

/-- Settles O40, field by field of the reset state. -/
theorem resetLeavesTheSpecifiedState : Obligations.ResetLeavesTheSpecifiedState := by
  have hsettled : Settled State.reset := by decide
  have hmaps : MapsWf State.reset := ⟨memory_wf_nil 256, memory_wf_nil 128⟩
  have hstatus : StatusCurrent State.reset := .inl rfl
  have hcache (a : Byte) : State.reset.cache.read a.toNat = none := memory_read_nil _
  have hstored (a : Byte) : getStored a State.reset = .refused .cacheEntryUnset := by
    simp only [getStored, hcache]
  exact ⟨hsettled, hmaps, hstatus, rfl, rfl, fun a => ⟨hcache a, hstored a⟩⟩

end Sys2Proof.Machine

/-! PROOFS. The family of spec/20_memory.md: the order in which operations and exchanges take effect, and what may
change an entry of the cache. -/

namespace Sys2Proof.Machine

/-! ### The order of effects (R37) -/

/-- If the next call is a word and the step answers a next state, the word decodes, and the step executed
what it decodes to. -/
theorem step_word_cases {s t : State} {c : Code} {rest : List Call} (hc : s.calls = .word c :: rest)
    (h : step s = .next t) : ∃ i, decode c = .ok i ∧ exec i (setCalls rest s) = .next t := by
  cases hd : decode c with
  | ok i => exact ⟨i, rfl, step_word hc hd ▸ h⟩
  | error e => simp [step, takeCall, hc, hd] at h

/-- Settles O36, by the kind of the caller's next call: a port change adds and places nothing, a word adds
the events of its instruction, and a procedure adds its pin write and places its exchanges. -/
theorem stepOnlyAppendsToTheRecord : Obligations.StepOnlyAppendsToTheRecord := by
  intro s t h
  constructor
  · intro hc
    rw [step_idle hc] at h
    cases h
    rfl
  · intro c rest hc
    cases c with
    | drive inp =>
      rw [step_drive hc] at h
      cases h
      exact ⟨[], [], (List.append_nil _).symm, rfl, rfl, rfl⟩
    | word w =>
      obtain ⟨i, hd, hexec⟩ := step_word_cases hc h
      obtain ⟨hcalls, events, htrace, hevents⟩ := exec_events hexec
      exact ⟨events, [], htrace, ⟨i, hd, hevents⟩, hcalls, rfl⟩
    | proc p =>
      rw [step_proc hc] at h
      obtain ⟨htrace, placed, hcalls, hplaces⟩ := runProc_places h
      exact ⟨_, placed, htrace, rfl, hcalls, hplaces⟩

/-! ### Changes of the cache (R40, R110, R112, R113) -/

/-- Setting one entry changes at most that entry, and to the value stored. -/
theorem storeEntry_changes {s : State} {a : Byte} {v : Word} {b : Nat}
    (hb : (storeEntry a v s).cache.read b ≠ s.cache.read b) :
    b = a.toNat ∧ (storeEntry a v s).cache.read b = some v := by
  have heq : b = a.toNat := by
    by_contra hne
    exact hb (memory_read_write_other _ _ _ _ hne)
  exact ⟨heq, heq ▸ memory_read_write_same _ _ _⟩

/-- A procedure that changes an entry of the cache either wrote through, so that the WRITE of the new value
is the next call, or was the tail of a read-back, which stores the payload that stands on `rx`. -/
theorem runProc_cache_changes {p : Proc} {s t : State} {b : Nat} (h : runProc p s = .next t)
    (hb : t.cache.read b ≠ s.cache.read b) :
    ∃ (a : Byte) (v : Word), b = a.toNat ∧ t.cache.read b = some v ∧
      (t.calls.head? = some (exchangeCall (encFrame a 1 v)) ∨
       p = .bankStore a ∧ v = framePayload s.inp.rx) := by
  rcases runProc_cases h with
    hhost | ⟨u, a, w, d, cs, hhost, rfl⟩ | ⟨u, a, v, hhost, rfl⟩ | ⟨a, rfl, rfl⟩
  · exact absurd (congrArg (Memory.read · b) hhost.cache) hb
  · exact absurd (congrArg (Memory.read · b) hhost.cache) hb
  · rw [← hhost.cache] at hb
    obtain ⟨heq, hread⟩ := storeEntry_changes hb
    exact ⟨a, v, heq, hread, .inl rfl⟩
  · obtain ⟨heq, hread⟩ := storeEntry_changes hb
    exact ⟨a, _, heq, hread, .inr ⟨rfl, rfl⟩⟩

/-- Settles O37: of the calls a step can perform, only a procedure changes the cache. -/
theorem cacheChangesOnlyByWriteThroughOrReadBack :
    Obligations.CacheChangesOnlyByWriteThroughOrReadBack := by
  intro s t b h hb
  rcases step_cases h with ⟨-, rfl⟩ | ⟨inp, rest, -, rfl⟩ | ⟨p, rest, hc, hp⟩ | ⟨c, i, rest, -, -, hi⟩
  · exact absurd rfl hb
  · exact absurd rfl hb
  · obtain ⟨a, v, heq, hread, hwrite | ⟨rfl, hv⟩⟩ := runProc_cache_changes hp hb
    · exact ⟨a, v, heq, hread, .inl hwrite⟩
    · exact ⟨a, v, heq, hread, .inr ⟨by rw [hc, List.head?_cons], hv⟩⟩
  · obtain ⟨hcache, -⟩ := instructionsKeepCacheDriverProgramAndOperands i _ t hi
    exact absurd (congrArg (Memory.read · b) hcache) hb

end Sys2Proof.Machine

/-! PROOFS. The family of spec/30_encoding.md: decoder and encoder as inverses of each other, what is refused
and what is not, and the meaning of the three wire frames. -/

namespace Sys2Proof.Machine

/-! ### Frames and their bytes (R50, R51, R55) -/

/-- The bytes that are a frame are the five bytes of that frame. -/
theorem frameOfBytes_eq_some {bs : List Byte} {f : Frame} :
    frameOfBytes bs = some f ↔ bs = frameBytes f := by
  constructor
  · intro h
    unfold frameOfBytes at h
    split at h
    · cases h; rfl
    · cases h
  · rintro rfl
    exact frameOfBytes_frameBytes f

/-- Bytes of another length are no frame. -/
theorem frameOfBytes_eq_none {bs : List Byte} (h : bs.length ≠ 5) : frameOfBytes bs = none := by
  cases hf : frameOfBytes bs with
  | none => rfl
  | some f => exact absurd (congrArg List.length (frameOfBytes_eq_some.1 hf)) h

/-- A concatenation as a number. -/
theorem toNat_append_eq_add {m n : Nat} (x : BitVec m) (y : BitVec n) :
    (x ++ y).toNat = x.toNat * 2 ^ n + y.toNat := by
  rw [BitVec.toNat_append, ← Nat.shiftLeft_add_eq_or_of_lt y.isLt, Nat.shiftLeft_eq]

/-- The address field is the first byte without its lowest bit (R54). -/
theorem frameAddr_toNat (f : Frame) : (frameAddr f).toNat = f.b0.toNat / 2 := by
  simp only [frameAddr, BitVec.extractLsb'_toNat, Nat.shiftRight_eq_div_pow]
  omega

/-- The flag is the lowest bit of the first byte. -/
theorem frameFlag_eq_one {f : Frame} : frameFlag f = 1 ↔ f.b0.toNat % 2 = 1 := by
  simp [frameFlag, ← BitVec.toNat_inj]

/-- The payload as a number: bytes 1 to 4, the most significant first (R55). -/
theorem framePayload_toNat (f : Frame) : (framePayload f).toNat =
    f.b1.toNat * 2 ^ 24 + f.b2.toNat * 2 ^ 16 + f.b3.toNat * 2 ^ 8 + f.b4.toNat := by
  simp only [framePayload, toNat_append_eq_add]
  omega

/-- The first byte of an outbound frame as a number: the address above the flag (R51). -/
theorem mosiFrame_b0_toNat (a : BitVec 7) (w : BitVec 1) (d : Word) :
    (mosiFrame a w d).b0.toNat = 2 * a.toNat + w.toNat := by
  simp only [mosiFrame, toNat_append_eq_add]
  omega

/-- The payload bytes of an outbound frame as numbers, the most significant first (R51). -/
theorem mosiFrame_payload_toNat (a : BitVec 7) (w : BitVec 1) (d : Word) :
    (mosiFrame a w d).b1.toNat = d.toNat / 2 ^ 24 ∧
    (mosiFrame a w d).b2.toNat = d.toNat / 2 ^ 16 % 256 ∧
    (mosiFrame a w d).b3.toNat = d.toNat / 2 ^ 8 % 256 ∧
    (mosiFrame a w d).b4.toNat = d.toNat % 256 := by
  simp only [mosiFrame, BitVec.extractLsb'_toNat, Nat.shiftRight_eq_div_pow,
    true_and]
  constructor <;> omega

/-! ### Decoder and encoder (R51, R52, R53, R56, R58) -/

/-- The decoder reads an outbound frame from its bytes. -/
@[simp] theorem decode_mosi_frameBytes (f : Frame) :
    decode (.mosi (frameBytes f)) = .ok (decodeMosi f) := rfl

/-- The decoder reads an inbound frame from its bytes. -/
@[simp] theorem decode_miso_frameBytes (f : Frame) :
    decode (.miso (frameBytes f)) = .ok (decodeMiso f) := rfl

/-- An outbound frame with the flag set is a WRITE datagram. -/
theorem decodeMosi_write {f : Frame} (h : f.b0.toNat % 2 = 1) :
    decodeMosi f = .write (frameAddr f) (framePayload f) :=
  if_pos (frameFlag_eq_one.2 h)

/-- An outbound frame with the flag clear is a READ datagram. -/
theorem decodeMosi_read {f : Frame} (h : f.b0.toNat % 2 = 0) :
    decodeMosi f = .read (frameAddr f) (framePayload f) :=
  if_neg (by rw [frameFlag_eq_one]; omega)

/-- The decoder gives every encoded instruction back. -/
theorem decode_encode (i : Instr) : decode (encode i) = .ok i := by
  cases i with
  | enc | dec | p2cs | cs2p | p2hd | hd2p | p2gs | reserved7 => rfl
  | write a d => exact decode_mosiFrame a 1 d
  | read a d => exact decode_mosiFrame a 0 d
  | reply st d => simp [encode, decodeMiso]

/-- Settles O23: an operation select by computation, a frame by the fields it is assembled from. -/
theorem everyEncodedInstructionDecodesBack : Obligations.EveryEncodedInstructionDecodesBack :=
  decode_encode

/-- The operation a select stands for is encoded as that select, the reserved one too (R56, R57). -/
theorem encode_decodeOp : ∀ op : BitVec 3, encode (decodeOp op) = .opsel [op.setWidth 8] := by
  decide

/-- The datagram an outbound frame is read as is encoded as that frame. -/
theorem encode_decodeMosi (f : Frame) : encode (decodeMosi f) = .mosi (frameBytes f) := by
  have hfields : mosiFrame (frameAddr f) (frameFlag f) (framePayload f) = f := mosiFrame_fields f
  rcases BitVec.eq_zero_or_eq_one (frameFlag f) with hflag | hflag <;>
    rw [hflag] at hfields <;> simp [decodeMosi, hflag, encode, hfields]

/-- The reply an inbound frame is read as is encoded as that frame. -/
theorem encode_decodeMiso (f : Frame) : encode (decodeMiso f) = .miso (frameBytes f) := by
  simp only [decodeMiso, encode, misoFrame_fields]

/-- An accepted operation-select word is one byte that holds a 3-bit select, and decodes to what that
select stands for. -/
theorem decodeOpsel_cases {bs : List Byte} {i : Instr} (h : decodeOpsel bs = .ok i) :
    ∃ op : BitVec 3, bs = [op.setWidth 8] ∧ i = decodeOp op := by
  unfold decodeOpsel at h
  split at h
  · next b =>
    split at h
    · next hb =>
      cases h
      have hbyte : b = (b.setWidth 3).setWidth 8 := by
        apply BitVec.eq_of_toNat_eq
        simp only [BitVec.toNat_setWidth]
        omega
      exact ⟨b.setWidth 3, congrArg (fun x => [x]) hbyte, rfl⟩
    · cases h
  · cases h

/-- What the decoder accepts is the encoding of what it reads. -/
theorem encode_of_decode {c : Code} {i : Instr} (h : decode c = .ok i) : encode i = c := by
  cases c with
  | opsel bs =>
    obtain ⟨op, rfl, rfl⟩ := decodeOpsel_cases h
    exact encode_decodeOp op
  | mosi bs =>
    simp only [decode] at h
    split at h
    · next f hf =>
      cases h
      rw [frameOfBytes_eq_some.1 hf, encode_decodeMosi]
    · cases h
  | miso bs =>
    simp only [decode] at h
    split at h
    · next f hf =>
      cases h
      rw [frameOfBytes_eq_some.1 hf, encode_decodeMiso]
    · cases h

/-- Settles O24, by the place the word is presented at. -/
theorem everyAcceptedWordIsAnEncoding : Obligations.EveryAcceptedWordIsAnEncoding :=
  fun _ _ h => encode_of_decode h

/-- Settles O25: the fields of the frame as numbers, and the flag decides between the datagrams. -/
theorem everyFiveBytesAreADatagramAndAReply : Obligations.EveryFiveBytesAreADatagramAndAReply := by
  intro b0 b1 b2 b3 b4
  let f : Frame := ⟨b0, b1, b2, b3, b4⟩
  refine ⟨frameAddr f, framePayload f, frameAddr_toNat f, framePayload_toNat f,
    fun hset => ?_, fun hclear => ?_, decode_miso_frameBytes f⟩
  · rw [← decodeMosi_write (f := f) hset]
    exact decode_mosi_frameBytes f
  · rw [← decodeMosi_read (f := f) hclear]
    exact decode_mosi_frameBytes f

/-- Settles O26: each word is the encoding of its instruction, which the decoder gives back. -/
theorem specWordsDecodeAsTheSpecSays : Obligations.SpecWordsDecodeAsTheSpecSays :=
  ⟨decode_encode (.write 0x10 0x00061F0A), decode_encode (.read 0x10 0),
    decode_encode (.write 0x40 0x80000001), decode_encode (.reply 0x09 0x00061F0A),
    decode_encode .enc, decode_encode .p2gs, decode_encode .reserved7⟩

/-! ### What a step refuses (R50, R57) -/

/-- The next call is a word the decoder does not accept: the step refuses it by the decoder's name. -/
theorem step_word_refused {s : State} {c : Code} {rest : List Call} {e : DecodeError}
    (hc : s.calls = .word c :: rest) (hd : decode c = .error e) :
    step s = .refused (decodeRefusal e) := by
  simp [step, takeCall, hc, hd]

/-- Settles O27: bytes of another length are no frame, on either side of the bus. -/
theorem otherLengthsAreRefused : Obligations.OtherLengthsAreRefused := by
  intro s bs rest hlen
  have hnone : frameOfBytes bs = none := frameOfBytes_eq_none hlen
  exact ⟨fun hc => step_word_refused hc (e := .notAFrame) (by simp [decode, hnone]),
    fun hc => step_word_refused hc (e := .notAFrame) (by simp [decode, hnone])⟩

/-- The decoder reads a 3-bit select as the operation it stands for. -/
theorem decode_opsel (op : BitVec 3) : decode (.opsel [op.setWidth 8]) = .ok (decodeOp op) :=
  encode_decodeOp op ▸ decode_encode (decodeOp op)

/-- The selects that are not reserved. -/
theorem op_cases : ∀ {op : BitVec 3}, op ≠ 7 →
    op = 0 ∨ op = 1 ∨ op = 2 ∨ op = 3 ∨ op = 4 ∨ op = 5 ∨ op = 6 := by decide

/-- A select that is not reserved completes in every state: it stands on the `op` port, and the block
drives the outputs of its operation (R56). -/
theorem exec_decodeOp {op : BitVec 3} (h : op ≠ 7) (s : State) :
    exec (decodeOp op) s = .next (selectOp op (blockOutputs s.cfg op s.inp) s) := by
  rcases op_cases h with rfl | rfl | rfl | rfl | rfl | rfl | rfl <;> rfl

/-- A select that is not reserved drives an output. -/
theorem blockOutputs_driven {op : BitVec 3} (h : op ≠ 7) (c : Params) (inp : Inputs) :
    blockOutputs c op inp ≠ .undriven := by
  rcases op_cases h with rfl | rfl | rfl | rfl | rfl | rfl | rfl <;> simp [blockOutputs]

/-- Settles O15: the step executes what the select stands for, and only the reserved one has no meaning. -/
theorem onlyTheReservedSelectIsRefused : Obligations.OnlyTheReservedSelectIsRefused := by
  refine ⟨fun _ => rfl, ?_⟩
  intro s op rest hc
  have hstep : step s = exec (decodeOp op) (setCalls rest s) := step_word hc (decode_opsel op)
  constructor
  · rintro rfl
    exact hstep
  · intro hop
    exact ⟨_, hstep.trans (exec_decodeOp hop _), rfl, rfl, blockOutputs_driven hop _ _⟩

/-! ### The datagrams (R53, R90 to R92, R97, R98) -/

/-- A completed exchange changes nothing but what an exchange changes. -/
theorem completeExchange_sameButExchange (tx rx : Frame) (p : Peer) (s : State) :
    SameButExchange s (completeExchange tx rx p s) := ⟨rfl, rfl⟩

/-- A completed exchange adds its events to the record: nine of the bus, then three of the capture. -/
theorem completeExchange_events (tx rx : Frame) (p : Peer) (s : State) :
    (completeExchange tx rx p s).trace = s.trace ++ exchangeEvents tx rx := by
  rw [completeExchange_trace, List.append_assoc]
  rfl

/-- The payload of the peer's reply is what was pending before the request (R97). -/
@[simp] theorem framePayload_peerReply (n : Nat) (p : Peer) :
    framePayload (peerReply n p) = p.pend := framePayload_misoFrame _ _

/-- A WRITE datagram at the peer. -/
theorem peerAfter_write (n : Nat) (p : Peer) (a : BitVec 7) (d : Word) :
    peerAfter n p a 1 d =
      { p with regs := regsAfterWrite p a d, pend := Config.drawPending n,
               received := some (a.toNat, d), sampled := none } := rfl

/-- A READ datagram at the peer. -/
theorem peerAfter_read (n : Nat) (p : Peer) (a : BitVec 7) (d : Word) :
    peerAfter n p a 0 d =
      { p with regs := regsAfterRead p a (sampleReg n p a), pend := sampleReg n p a,
               received := none, sampled := some (a.toNat, sampleReg n p a) } := rfl

/-- At the reference peer the register of a READ datagram holds the content sampled. -/
theorem regsAfterRead_read_same {p : Peer} (h : p.kind = .reference) (a : BitVec 7) (v : Word) :
    (regsAfterRead p a v).read a.toNat = some v := by
  simp [regsAfterRead, h]

/-- At the reference peer a READ datagram leaves every other register alone. -/
theorem regsAfterRead_read_other {p : Peer} (h : p.kind = .reference) (a : BitVec 7) (v : Word)
    (b : Nat) (hb : b ≠ a.toNat) : (regsAfterRead p a v).read b = p.regs.read b := by
  simp [regsAfterRead, h, memory_read_write_other _ _ _ _ hb]

/-- The reference peer samples the content a register holds. -/
theorem sampleReg_stored {p : Peer} (h : p.kind = .reference) {a : BitVec 7} {v : Word}
    (hv : p.regs.read a.toNat = some v) (n : Nat) : sampleReg n p a = v := by
  simp [sampleReg, h, hv]

/-- Settles O16: on a reliable bus the exchange completes, and the peer is left as after a WRITE. -/
theorem writeDatagramIsOneExchange : Obligations.WriteDatagramIsOneExchange := by
  intro s a d ⟨hvariant, hbus⟩
  have hexec : exec (.write a d) s = exchange a 1 d s := rfl
  refine ⟨_, _, _, hexec.trans (exchange_reliable hvariant hbus a 1 d),
    completeExchange_sameButExchange _ _ _ s,
    ⟨mosiFrame_b0_toNat a 1 d, mosiFrame_payload_toNat a 1 d⟩,
    completeExchange_events _ _ _ s, rfl, rfl, rfl, rfl, framePayload_peerReply _ _, ?_⟩
  rw [completeExchange_peer, peerAfter_write]
  refine ⟨rfl, fun hkind => ?_, fun hkind b => ?_⟩
  · exact ⟨regsAfterWrite_read_same hkind a d, regsAfterWrite_read_other hkind a d⟩
  · simp only [regsAfterWrite_chip hkind, memory_read_nil]

/-- Settles O17: on a reliable bus the exchange completes, and the peer is left as after a READ. -/
theorem readDatagramIsOneExchange : Obligations.ReadDatagramIsOneExchange := by
  intro s a d ⟨hvariant, hbus⟩
  have hexec : exec (.read a d) s = exchange a 0 d s := rfl
  refine ⟨_, _, _, hexec.trans (exchange_reliable hvariant hbus a 0 d),
    completeExchange_sameButExchange _ _ _ s,
    ⟨mosiFrame_b0_toNat a 0 d, mosiFrame_payload_toNat a 0 d⟩,
    completeExchange_events _ _ _ s, rfl, rfl, rfl, rfl, framePayload_peerReply _ _, ?_⟩
  rw [completeExchange_peer, peerAfter_read]
  refine ⟨rfl, fun hkind => ?_, fun hkind b => ?_⟩
  · exact ⟨regsAfterRead_read_same hkind a _, fun v hv => sampleReg_stored hkind hv _,
      regsAfterRead_read_other hkind a _⟩
  · simp only [regsAfterRead_chip hkind, memory_read_nil]

/-! ### The reply (R52, R71, R91) -/

/-- On the SPI variant a reply completes: its frame is taken in. -/
theorem exec_reply_spi {s : State} (hv : s.variant = .spi) (st : Byte) (d : Word) :
    exec (.reply st d) s = .next (receiveReply (misoFrame st d) s) := by
  simp [exec, execReply, hv]

/-- Settles O20: taking the assembled frame in gives its fields, and its payload is the number its bytes
spell. -/
theorem replyFrameIsDecodedAndCaptured : Obligations.ReplyFrameIsDecodedAndCaptured := by
  intro s st d hvariant
  have hpayload := framePayload_toNat (misoFrame st d)
  rw [framePayload_misoFrame] at hpayload
  refine ⟨misoFrame st d, ?_, rfl, hpayload⟩
  rw [exec_reply_spi hvariant, receiveReply, decStatus_misoFrame, decPayload_misoFrame]
  rfl

end Sys2Proof.Machine

/-! PROOFS. The family of spec/40_codec.md: what ENC and DEC drive, and that the two are inverse to reading a
frame's fields. -/

namespace Sys2Proof.Machine

/-! ### ENC and DEC as operations (R70, R71) -/

/-- ENC completes in every state: it drives the frame of its inputs. -/
theorem exec_enc (s : State) :
    exec .enc s = .next { s with op := 0, out := .tx (encFrame s.inp.addr s.inp.rw s.inp.wdata) } := rfl

/-- DEC completes in every state: it drives the status and the payload of the inbound frame. -/
theorem exec_dec (s : State) :
    exec .dec s = .next { s with op := 1, out := .reply s.inp.rx.b0 (framePayload s.inp.rx) } := rfl

/-- The first byte of ENC's frame as a number: the identifier modulo 128 above the flag. -/
theorem encFrame_b0_toNat (a : Byte) (w : BitVec 1) (d : Word) :
    (encFrame a w d).b0.toNat = 2 * (a.toNat % 128) + w.toNat := by
  rw [encFrame, mosiFrame_b0_toNat, addrField_toNat]

/-- Settles O1: the first byte is the address field above the flag, the others are the bytes of the payload. -/
theorem encDrivesTheFrame : Obligations.EncDrivesTheFrame := fun s =>
  ⟨_, exec_enc s, encFrame_b0_toNat _ _ _, mosiFrame_payload_toNat (addrField s.inp.addr) _ _⟩

/-- Settles O2: the payload is the number bytes 1 to 4 spell. -/
theorem decTakesTheFrameApart : Obligations.DecTakesTheFrameApart := fun s =>
  ⟨_, exec_dec s, framePayload_toNat s.inp.rx⟩

/-! ### Round trips (R73) -/

/-- A 7-bit address widened to an identifier is that identifier's address field. -/
@[simp] theorem addrField_setWidth (a : BitVec 7) : addrField (a.setWidth 8) = a := by
  apply BitVec.eq_of_toNat_eq
  rw [addrField_toNat, BitVec.toNat_setWidth]
  omega

/-- An outbound frame is the assembly of its own fields and of no others. -/
theorem mosiFrame_eq_iff {a : BitVec 7} {w : BitVec 1} {d : Word} {f : Frame} :
    mosiFrame a w d = f ↔ a = frameAddr f ∧ w = frameFlag f ∧ d = framePayload f := by
  constructor
  · rintro rfl
    simp only [frameAddr_mosiFrame, frameFlag_mosiFrame, framePayload_mosiFrame, and_self]
  · rintro ⟨rfl, rfl, rfl⟩
    exact mosiFrame_fields f

/-- ENC on 7-bit addresses is a bijection onto the frames. -/
theorem existsUnique_encFrame (f : Frame) :
    ∃! x : BitVec 7 × BitVec 1 × Word, encFrame (x.1.setWidth 8) x.2.1 x.2.2 = f := by
  simp only [encFrame, addrField_setWidth, mosiFrame_eq_iff]
  refine ⟨(frameAddr f, frameFlag f, framePayload f), ⟨rfl, rfl, rfl⟩, ?_⟩
  rintro ⟨a, w, d⟩ ⟨ha, hw, hd⟩
  exact Prod.ext ha (Prod.ext hw hd)

/-- DEC is a bijection from the frames onto the pairs of a status and a payload. -/
theorem existsUnique_dec (y : Byte × Word) : ∃! rx : Frame, (decStatus rx, decPayload rx) = y := by
  obtain ⟨st, d⟩ := y
  refine ⟨misoFrame st d, Prod.ext (decStatus_misoFrame st d) (decPayload_misoFrame st d),
    fun rx h => ?_⟩
  obtain ⟨rfl, rfl⟩ := Prod.mk.inj h
  exact (misoFrame_fields rx).symm

/-- Settles O3: the fields of an assembled frame read back, and a frame is assembled from its fields. -/
theorem codecRoundTripsAndIsBijective : Obligations.CodecRoundTripsAndIsBijective := by
  refine ⟨fun a w d ha => ?_, existsUnique_encFrame, fun _ => ⟨rfl, rfl⟩, existsUnique_dec⟩
  have hmod : a.toNat % 128 = a.toNat := Nat.mod_eq_of_lt ha
  have hpayload : framePayload (encFrame a w d) = d := framePayload_mosiFrame _ w d
  refine ⟨⟨?_, frameFlag_mosiFrame _ w d, hpayload⟩, ?_, hpayload⟩
  · rw [encFrame, frameAddr_mosiFrame, addrField_toNat, hmod]
  · rw [decStatus, encFrame_b0_toNat, hmod]

/-! ### Identifiers wider than the address field (R75) -/

/-- An identifier and its residue modulo 128 have the same address field. -/
theorem addrField_mod (a : Byte) : addrField (BitVec.ofNat 8 (a.toNat % 128)) = addrField a := by
  apply BitVec.eq_of_toNat_eq
  rw [addrField_toNat, addrField_toNat, BitVec.toNat_ofNat]
  omega

/-- ENC gives an identifier and its residue modulo 128 the same frame. -/
theorem encFrame_mod (a : Byte) (w : BitVec 1) (d : Word) :
    encFrame (BitVec.ofNat 8 (a.toNat % 128)) w d = encFrame a w d := by
  rw [encFrame, addrField_mod, encFrame]

/-- Settles O4: the two identifiers have the same frame, and the flag is the lowest bit of its first byte. -/
theorem encIgnoresIdentifierBitSeven : Obligations.EncIgnoresIdentifierBitSeven := by
  intro s a
  refine ⟨encFrame a s.inp.rw s.inp.wdata, exec_enc _, ?_, ?_⟩
  · rw [exec_enc, encFrame_mod]
  · rw [encFrame_b0_toNat]
    omega

end Sys2Proof.Machine

/-! PROOFS. The family of spec/41_transport.md: what an exchange does on each bus, the lag of the reply, and the two
register procedures as the exchanges they place. -/

namespace Sys2Proof.Machine

/-! ### Where an exchange stops, and where it completes (R94, R99, R201) -/

/-- A WRITE datagram is the exchange of its frame. -/
theorem exec_write (a : BitVec 7) (d : Word) (s : State) :
    exec (.write a d) s = exchange a 1 d s := rfl

/-- A READ datagram is the exchange of its frame. -/
theorem exec_read (a : BitVec 7) (d : Word) (s : State) :
    exec (.read a d) s = exchange a 0 d s := rfl

/-- The UART variant refuses an exchange. -/
theorem exchange_uart {s : State} (hv : s.variant = .uart) (a : BitVec 7) (w : BitVec 1) (d : Word) :
    exchange a w d s = .refused .uartNotImplemented := by
  simp [exchange, hv]

/-- An unconfigured bus refuses an exchange. -/
theorem exchange_notConfigured {s : State} (hv : s.variant = .spi) (hb : s.bus = .notConfigured)
    (a : BitVec 7) (w : BitVec 1) (d : Word) :
    exchange a w d s = .refused .transportNotConfigured := by
  simp [exchange, hv, hb]

/-- On a bus that never completes an exchange leaves the caller stuck. -/
theorem exchange_hangs {s : State} (hv : s.variant = .spi) (hb : s.bus = .hangs)
    (a : BitVec 7) (w : BitVec 1) (d : Word) :
    exchange a w d s = .fault .busNeverCompletes := by
  simp [exchange, hv, hb]

/-- A reliable bus and a malfunctioning one complete an exchange. -/
theorem exchange_completes {s : State} (h : BusCompletes s) (a : BitVec 7) (w : BitVec 1) (d : Word) :
    ∃ t, exchange a w d s = .next t := by
  obtain ⟨hv, hb | hb⟩ := h
  · exact ⟨_, exchange_reliable hv hb a w d⟩
  · exact ⟨_, exchange_garbage hv hb a w d⟩

/-- Settles O22: either datagram is an exchange, and the condition of the bus says how an exchange ends. -/
theorem datagramsStopOnlyWithoutAWorkingTransport :
    Obligations.DatagramsStopOnlyWithoutAWorkingTransport := by
  rintro s i ⟨a, d, hi⟩
  obtain ⟨w, hexec⟩ : ∃ w, exec i s = exchange a w d s := by
    rcases hi with rfl | rfl
    · exact ⟨1, exec_write a d s⟩
    · exact ⟨0, exec_read a d s⟩
  rw [hexec]
  exact ⟨fun hv => exchange_uart hv a w d, fun hv hb => exchange_notConfigured hv hb a w d,
    fun hv hb => exchange_hangs hv hb a w d, fun hv hb => exchange_completes ⟨hv, hb⟩ a w d⟩

/-- On a malfunctioning bus an exchange of a frame completes: its events are recorded, whatever came in is
decoded and its status captured, and nothing but what an exchange changes is changed. -/
theorem exchange_garbage_receives {s : State} (hv : s.variant = .spi) (hb : s.bus = .garbage)
    (a : BitVec 7) (w : BitVec 1) (d : Word) :
    ∃ t rx, exchange a w d s = .next t ∧ SameButExchange s t ∧
      t.trace = s.trace ++ exchangeEvents (mosiFrame a w d) rx ∧
      t.out = .reply rx.b0 (framePayload rx) ∧ t.lastStatus = rx.b0 :=
  ⟨_, _, exchange_garbage hv hb a w d, completeExchange_sameButExchange _ _ _ s,
    completeExchange_events _ _ _ s, rfl, rfl⟩

/-- Settles O21: what a malfunctioning bus does to an exchange, for the flag of each datagram. -/
theorem malfunctioningBusStillCompletes : Obligations.MalfunctioningBusStillCompletes := by
  intro s a d hv hb
  obtain ⟨t, rx, hwrite, hsame, htrace, hout, hstatus⟩ := exchange_garbage_receives hv hb a 1 d
  obtain ⟨u, ry, hread, hreceived⟩ := exchange_garbage_receives hv hb a 0 d
  exact ⟨t, u, rx, ry, hwrite, hsame, htrace, hout, hstatus, hread, hreceived⟩

/-! ### The reply answers the exchange before it (R97, R98) -/

/-- On a reliable bus an exchange of either flag returns the pending reply with the peer's status, and the
request then acts on the peer. -/
theorem exchange_answers {s : State} (h : BusReady s) (a : BitVec 7) (w : BitVec 1) (d : Word) :
    ∃ t, exchange a w d s = .next t ∧ BusReady t ∧
      t.out = .reply t.lastStatus s.peer.pend ∧ t.lastStatus = peerStatus s.draws s.peer ∧
      t.peer = peerAfter s.draws s.peer a w d := by
  obtain ⟨hv, hb⟩ := h
  refine ⟨_, exchange_reliable hv hb a w d, ⟨hv, hb⟩, ?_, rfl, rfl⟩
  exact congrArg (Outputs.reply _) (framePayload_peerReply s.draws s.peer)

/-- Settles O18: the READ datagram makes the content sampled the pending reply, and the next exchange
returns the pending reply whatever it sends. -/
theorem replyLagsTheRequestByOneExchange : Obligations.ReplyLagsTheRequestByOneExchange := by
  intro s a b d e hs
  obtain ⟨t, hread, ht, -, -, hpeer⟩ := exchange_answers hs a 0 d
  have hsampled : t.peer.sampled = some (a.toNat, t.peer.pend) := by rw [hpeer, peerAfter_read]
  obtain ⟨u1, hnext1, -, hout1, -, -⟩ := exchange_answers ht b 0 e
  obtain ⟨u2, hnext2, -, hout2, -, -⟩ := exchange_answers ht b 1 e
  exact ⟨t, u1, u2, t.peer.pend, hread, hsampled, hnext1, hout1, hnext2, hout2⟩

/-- The status of the reference peer's replies is constant. -/
theorem peerStatus_reference {p : Peer} (h : p.kind = .reference) (n : Nat) : peerStatus n p = p.st := by
  simp [peerStatus, h]

/-- Settles O19: the WRITE stores the value, the first READ makes it the pending reply, and the second
returns it. -/
theorem referencePeerReadsBackWhatWasWritten : Obligations.ReferencePeerReadsBackWhatWasWritten := by
  intro s a d hs hkind
  obtain ⟨t, hwrite, ht, -, -, htpeer⟩ := exchange_answers hs a 1 d
  obtain ⟨u, hread, hu, -, -, hupeer⟩ := exchange_answers ht a 0 0
  obtain ⟨v, hagain, -, hout, hstatus, -⟩ := exchange_answers hu a 0 0
  have htkind : t.peer.kind = .reference := by rw [htpeer, peerAfter_kind, hkind]
  have hukind : u.peer.kind = .reference := by rw [hupeer, peerAfter_kind, htkind]
  have hstored : t.peer.regs.read a.toNat = some d := by
    rw [htpeer, peerAfter_write]
    exact regsAfterWrite_read_same hkind a d
  have hpend : u.peer.pend = d := by
    rw [hupeer, peerAfter_read]
    exact sampleReg_stored htkind hstored _
  have hst : v.lastStatus = s.peer.st := by
    rw [hstatus, peerStatus_reference hukind, hupeer, peerAfter_st, htpeer, peerAfter_st]
  exact ⟨t, u, v, hwrite, hread, hagain, by rw [hout, hst, hpend], hst⟩

/-! ### WRITE_REG and READ_REG (R92, R93) -/

/-- A procedure that comes to a WRITE_REG takes two steps on a bus that completes the exchange: ENC is
evaluated and its frame exchanged, with the peer's own reply if the bus is reliable. -/
theorem runSteps_writeReg_completes {s u : State} {p : Proc} {rest : List Call} {a : Byte} {v : Word}
    (hc : s.calls = .proc p :: rest) (hp : runProc p (setCalls rest s) = writeReg a v u)
    (hu : BusCompletes u) :
    ∃ rx q, runSteps 2 s =
        .next (completeExchange (encFrame a 1 v) rx q (transportEnc a 1 v u)) ∧
      (u.bus = .reliable → q = peerAfter u.draws u.peer (addrField a) 1 v) := by
  have h1 : step s = .next (pushCalls [exchangeCall (encFrame a 1 v)] (transportEnc a 1 v u)) := by
    rw [step_proc hc, hp]; exact writeReg_spi hu.1 a v
  obtain ⟨rx, q, h2, hreliable⟩ := step_exchange_completes
    (s := pushCalls [exchangeCall (encFrame a 1 v)] (transportEnc a 1 v u)) hu rfl rfl
  refine ⟨rx, q, ?_, fun hb => (hreliable hb).2⟩
  rw [runSteps_next 1 h1, runSteps_next 0 h2, runSteps_zero]
  rfl

/-- Settles O42: the two steps of WRITE_REG, and what a WRITE datagram does to the peer. -/
theorem writeRegIsOneExchange : Obligations.WriteRegIsOneExchange := by
  intro s a v rest hs hc
  obtain ⟨rx, q, hrun, hreliable⟩ := runSteps_writeReg_completes (u := setCalls rest s) hc rfl hs
  refine ⟨_, rx, hrun, rfl, completeExchange_events _ _ _ _, rfl, fun hb => ?_, rfl, rfl, rfl, rfl, rfl⟩
  rw [completeExchange_peer, hreliable hb, peerAfter_write, ← addrField_toNat a]
  exact ⟨rfl, fun hkind => regsAfterWrite_read_same hkind (addrField a) v⟩

/-- `s` after ENC of a READ datagram and its exchange twice, with the replies `first` and `second`, the
peer left as `p` and then as `q`. -/
def readTwice (a : Byte) (first second : Frame) (p q : Peer) (s : State) : State :=
  completeExchange (encFrame a 0 0) second q
    (completeExchange (encFrame a 0 0) first p (transportEnc a 0 0 s))

/-- The tail of READ_REG returns the payload that stands on `rx`. -/
theorem step_returnPayload {s : State} {rest : List Call}
    (hc : s.calls = .proc .returnPayload :: rest) :
    step s = .next (returnValue (decPayload s.inp.rx) (setCalls rest s)) := step_proc hc

/-- `s` after ENC of a READ datagram, with READ_REG's two exchanges and its return placed as the next
calls. -/
def placedRead (a : Byte) (s : State) : State :=
  pushCalls [exchangeCall (encFrame a 0 0), exchangeCall (encFrame a 0 0), .proc .returnPayload]
    (transportEnc a 0 0 s)

/-- A procedure that comes to a READ_REG takes four steps on a bus that completes the exchanges: ENC, the
same exchange twice, and the return of the second payload. On a reliable bus the peer answers both. -/
theorem runSteps_readReg {s u : State} {p : Proc} {rest : List Call} {a : Byte}
    (hc : s.calls = .proc p :: rest) (hp : runProc p (setCalls rest s) = readReg a u)
    (hu : BusCompletes u) :
    ∃ first second q r,
      (∃ t, runSteps 2 s = .next t ∧ t.peer = q) ∧
      runSteps 4 s =
        .next (returnValue (framePayload second) (readTwice a first second q r u)) ∧
      (u.bus = .reliable → q = peerAfter u.draws u.peer (addrField a) 0 0 ∧
        framePayload second = q.pend ∧ r = peerAfter (u.draws + 1) q (addrField a) 0 0) := by
  have h1 : step s = .next (placedRead a u) := by
    rw [step_proc hc, hp]; exact readReg_spi hu.1 a
  obtain ⟨first, q, h2, hfirst⟩ := step_exchange_completes (s := placedRead a u) hu rfl rfl
  obtain ⟨second, r, h3, hsecond⟩ := step_exchange_completes
    (s := completeExchange (encFrame a 0 0) first q
      (setCalls (exchangeCall (encFrame a 0 0) :: .proc .returnPayload :: u.calls) (placedRead a u)))
    hu rfl rfl
  have hrun (k : Nat) := (runSteps_next (k + 1) h1).trans (runSteps_next k h2)
  refine ⟨first, second, q, r, ⟨_, hrun 0, rfl⟩, ?_, fun hb => ⟨(hfirst hb).2, ?_, (hsecond hb).2⟩⟩
  · calc runSteps 4 s
      _ = runSteps 1 _ := (hrun 2).trans (runSteps_next 1 h3)
      _ = .next _ := runSteps_next 0 (step_returnPayload rfl)
  · rw [(hsecond hb).1]
    exact framePayload_peerReply _ _

/-- Two exchanges of the READ frame add the events of both to the record. -/
theorem readTwice_trace (a : Byte) (first second : Frame) (p q : Peer) (s : State) :
    (readTwice a first second p q s).trace = s.trace ++ exchangeEvents (encFrame a 0 0) first ++
      exchangeEvents (encFrame a 0 0) second := by
  rw [readTwice, completeExchange_events, completeExchange_events, transportEnc_trace]

/-- Settles O43: the four steps of READ_REG, and what a READ datagram makes the pending reply. -/
theorem readRegIsTwoIdenticalExchanges : Obligations.ReadRegIsTwoIdenticalExchanges := by
  intro s a rest hs hc
  obtain ⟨first, second, q, r, ⟨u, hrun2, hupeer⟩, hrun4, hreliable⟩ :=
    runSteps_readReg (u := setCalls rest s) hc rfl hs
  refine ⟨_, first, second, framePayload second, hrun4, rfl, readTwice_trace _ _ _ _ _ _, rfl, rfl, rfl,
    rfl, fun hb => ?_, rfl, rfl, rfl⟩
  obtain ⟨hq, hpayload, hr⟩ := hreliable hb
  have hsampled (n : Nat) (p : Peer) : (peerAfter n p (addrField a) 0 0).sampled =
      some (a.toNat % 128, (peerAfter n p (addrField a) 0 0).pend) := by
    rw [peerAfter_read, addrField_toNat]
  refine ⟨?_, u, hrun2, ?_⟩
  · rw [returnValue_peer, readTwice, completeExchange_peer, hr]
    exact hsampled _ _
  · rw [hupeer, hpayload, hq]
    exact hsampled _ _

/-! ### The UART variant (R59, R99) -/

/-- The UART variant refuses a reply. -/
theorem exec_reply_uart {s : State} (hv : s.variant = .uart) (st : Byte) (d : Word) :
    exec (.reply st d) s = .refused .uartNotImplemented := by
  simp [exec, execReply, hv]

/-- The UART variant refuses XCHG. -/
theorem xchg_uart {s : State} (hv : s.variant = .uart) (tx : Frame) :
    xchg tx s = .refused .uartNotImplemented := by
  simp [xchg, hv]

/-- The UART variant refuses WRITE_REG. -/
theorem writeReg_uart {s : State} (hv : s.variant = .uart) (a : Byte) (v : Word) :
    writeReg a v s = .refused .uartNotImplemented := by
  simp [writeReg, hv]

/-- The UART variant refuses READ_REG. -/
theorem readReg_uart {s : State} (hv : s.variant = .uart) (a : Byte) :
    readReg a s = .refused .uartNotImplemented := by
  simp [readReg, hv]

/-- Settles O44: the frames by their exchange or their arm, the bank's procedures by the register procedure
they come to. -/
theorem uartVariantIsRefused : Obligations.UartVariantIsRefused := by
  intro s a v tx b st rest hv
  refine ⟨exchange_uart hv b 1 v, exchange_uart hv b 0 v, exec_reply_uart hv st v,
    fun hc => ?_, fun hc => ?_, fun hc => ?_, fun hc => ?_, fun hc => ?_⟩ <;> rw [step_proc hc]
  · exact xchg_uart (s := setCalls rest s) hv tx
  · exact writeReg_uart (s := setCalls rest s) hv a v
  · exact readReg_uart (s := setCalls rest s) hv a
  · exact writeReg_uart (s := storeEntry a v (setCalls rest s)) hv a v
  · exact readReg_uart (s := pushCalls [.proc (.bankStore a)] (setCalls rest s)) hv a

end Sys2Proof.Machine

/-! PROOFS. The family of spec/42_register_bank.md: what the bank's three procedures do to the cache, and the register
procedures they come to. -/

namespace Sys2Proof.Machine

/-! ### GET_STORED (R111, R115) -/

/-- GET_STORED returns the value of a set entry. -/
theorem getStored_set {s : State} {a : Byte} {v : Word} (hv : s.cache.read a.toNat = some v) :
    getStored a s = .next (returnValue v s) := by
  simp [getStored, hv]

/-- GET_STORED is refused at an entry that has no value. -/
theorem getStored_unset {s : State} {a : Byte} (hv : s.cache.read a.toNat = none) :
    getStored a s = .refused .cacheEntryUnset := by
  simp [getStored, hv]

/-- Settles O45: the step runs GET_STORED on the caller's state with the call taken, whose cache is the
same. -/
theorem getStoredReturnsTheCachedValue : Obligations.GetStoredReturnsTheCachedValue := by
  intro s a rest hc
  rw [step_proc hc]
  exact ⟨fun _ hv => getStored_set (s := setCalls rest s) hv,
    fun hv => getStored_unset (s := setCalls rest s) hv⟩

/-! ### BANK_WRITE (R110) -/

/-- Settles O46: the entry is set before the two steps of WRITE_REG, which keep the cache on either bus; on a
reliable one they are those of `wroteRegister`. -/
theorem bankWriteIsWriteThrough : Obligations.BankWriteIsWriteThrough := by
  intro s a v rest hspi hbus hc
  obtain ⟨rx, q, hrun, -⟩ :=
    runSteps_writeReg_completes (u := storeEntry a v (setCalls rest s)) hc rfl ⟨hspi, hbus⟩
  refine ⟨_, hrun, rfl, ⟨rfl, rfl, rfl⟩, memory_read_write_same _ _ _,
    fun b hb => memory_read_write_other _ _ _ _ hb, ⟨rx, completeExchange_events _ _ _ _⟩, fun hb => ?_⟩
  have hreliable := runSteps_writeReg (u := storeEntry a v (setCalls rest s)) hc rfl ⟨hspi, hb⟩
  rw [Host.Outcome.next.inj (hrun.symm.trans hreliable)]
  exact wroteRegister_writtenThrough (setCalls rest s) a v

/-! ### BANK_READ (R112, R113) -/

/-- The tail of BANK_READ stores and returns the payload that stands on `rx`. -/
theorem step_bankStore {s : State} {a : Byte} {rest : List Call}
    (hc : s.calls = .proc (.bankStore a) :: rest) :
    step s = .next (returnValue (decPayload s.inp.rx)
      (storeEntry a (decPayload s.inp.rx) (setCalls rest s))) := step_proc hc

/-- Settles O47: the four steps of READ_REG leave the second reply on `rx` and the tail of BANK_READ as the
next call, and the fifth step stores its payload. -/
theorem bankReadStoresWhatItReads : Obligations.BankReadStoresWhatItReads := by
  intro s a rest hs hc
  obtain ⟨first, second, q, r, -, hread, -⟩ :=
    runSteps_readReg (u := pushCalls [.proc (.bankStore a)] (setCalls rest s)) hc rfl hs
  have hrun := (runSteps_add 4 1 hread).trans (runSteps_next 0 (step_bankStore rfl))
  refine ⟨_, first, second, framePayload second, hrun, rfl, ?_, rfl, rfl,
    memory_read_write_same _ _ _, fun b hb => memory_read_write_other _ _ _ _ hb⟩
  simp only [returnValue_trace, storeEntry_trace, setCalls_trace, readTwice_trace, pushCalls_trace]

end Sys2Proof.Machine

/-! PROOFS. The family of spec/43_percent_mapper.md: the linear map, the clamp, the two percent-and-code pairs, the
round trip and the global scaler. -/

namespace Sys2Proof.Machine

/-! ### The linear map (R121) -/

/-- The lower end of the input range maps to the lower end of the output range. -/
@[simp] theorem lmap_inLo (inLo inHi outLo outHi : Nat) :
    lmap inLo inLo inHi outLo outHi = outLo := by
  simp [lmap]

/-- The upper end of the input range maps to the upper end of the output range. -/
theorem lmap_inHi {inLo inHi outLo outHi : Nat} (hin : inLo < inHi) (hout : outLo ≤ outHi) :
    lmap inHi inLo inHi outLo outHi = outHi := by
  rw [lmap, Nat.mul_div_cancel_left _ (Nat.sub_pos_of_lt hin), Nat.add_sub_cancel' hout]

/-- Below the upper end of the input range, truncation keeps the map below the upper end of the output
range. -/
theorem lmap_lt_outHi {x inLo inHi outLo outHi : Nat} (hx : x < inHi) (hin : inLo < inHi)
    (hout : outLo < outHi) : lmap x inLo inHi outLo outHi < outHi := by
  have hprod : (x - inLo) * (outHi - outLo) < (inHi - inLo) * (outHi - outLo) :=
    Nat.mul_lt_mul_of_pos_right (by omega) (by omega)
  have hquot := Nat.div_lt_of_lt_mul hprod
  rw [lmap]
  omega

/-- The upper end of the output range is reached at the upper end of the input range alone. -/
theorem lmap_eq_outHi_iff {x inLo inHi outLo outHi : Nat} (hx : x ≤ inHi) (hin : inLo < inHi)
    (hout : outLo < outHi) : lmap x inLo inHi outLo outHi = outHi ↔ x = inHi := by
  constructor
  · intro htop
    by_contra hne
    exact (lmap_lt_outHi (Nat.lt_of_le_of_ne hx hne) hin hout).ne htop
  · rintro rfl
    exact lmap_inHi hin hout.le

/-- Settles O5: the properties of LMAP, one lemma each. -/
theorem linearMapIsBoundedAndMonotone : Obligations.LinearMapIsBoundedAndMonotone := by
  intro x inLo inHi outLo outHi _ hx hin hout
  obtain ⟨hlower, hupper⟩ := lmap_bounds hx hin hout
  exact ⟨rfl, hlower, hupper, lmap_inLo _ _ _ _, lmap_inHi hin hout, fun _ hxy _ => lmap_mono hxy,
    fun hlt => (lmap_eq_outHi_iff hx hin hlt).1⟩

/-! ### CLAMP (R120, R129) -/

/-- CLAMP leaves a percent up to 100 as it is. -/
theorem clampPct_of_le {p : Byte} (h : p.toNat ≤ 100) : clampPct p = p :=
  BitVec.eq_of_toNat_eq (by rw [clampPct_toNat, min_eq_left h])

/-- CLAMP gives 100 for a percent from 100 on. -/
theorem clampPct_of_ge {p : Byte} (h : 100 ≤ p.toNat) : clampPct p = 100 :=
  BitVec.eq_of_toNat_eq (by rw [clampPct_toNat, min_eq_right h]; rfl)

/-- The three maps of a percent see it through CLAMP only. -/
theorem percentMaps_congr {c : Params} {p q : Byte} (h : clampPct p = clampPct q) :
    p2cs c p = p2cs c q ∧ p2hd c p = p2hd c q ∧ p2gs c p = p2gs c q := by
  have hlinear : gsLinear c p = gsLinear c q := by rw [gsLinear, gsLinear, h]
  exact ⟨by rw [p2cs, p2cs, h], by rw [p2hd, p2hd, h], by rw [p2gs, p2gs, hlinear]⟩

/-- Settles O11: CLAMP sends a percent above 100 and 100 itself to the same value. -/
theorem percentsAboveTheRangeActAsOneHundred : Obligations.PercentsAboveTheRangeActAsOneHundred := by
  intro c p
  have hle : (clampPct p).toNat ≤ 100 := by rw [clampPct_toNat]; exact min_le_right _ _
  refine ⟨?_, clampPct_of_le hle, clampPct_of_le, fun hp => ?_⟩
  · rw [clampPct_toNat, Nat.max_zero]
  · have h100 : clampPct p = 100 := clampPct_of_ge hp.le
    exact ⟨h100, percentMaps_congr (h100.trans (clampPct_of_ge (p := 100) le_rfl).symm)⟩

/-! ### A percent and a code of the range `[lo, hi]`

P2CS and P2HD are one map at two ranges, and so are their inverses CS2P and HD2P. -/

/-- The code of a percent in the range `[lo, hi]` (R122, R124). -/
def codeOfPercent (lo hi : Nat) (pct : Byte) : Byte :=
  BitVec.ofNat 8 (lmap (clampPct pct).toNat pctMin pctMax lo hi)

/-- The percent of a code in the range `[lo, hi]` (R123, R125). -/
def percentOfCode (lo hi : Nat) (code : Byte) : Byte :=
  BitVec.ofNat 8 (lmap (clampCode code lo hi) lo hi pctMin pctMax)

theorem p2cs_eq (c : Params) (p : Byte) : p2cs c p = codeOfPercent c.csMin c.csMax p := rfl
theorem p2hd_eq (c : Params) (p : Byte) : p2hd c p = codeOfPercent c.hdMin c.hdMax p := rfl
theorem cs2p_eq (c : Params) (code : Byte) : cs2p c code = percentOfCode c.csMin c.csMax code := rfl
theorem hd2p_eq (c : Params) (code : Byte) : hd2p c code = percentOfCode c.hdMin c.hdMax code := rfl

/-- A value of a byte's range passes through the 8-bit result unchanged. -/
theorem toNat_ofNat_byte {n : Nat} (h : n ≤ 255) : (BitVec.ofNat 8 n).toNat = n := by
  rw [BitVec.toNat_ofNat]; omega

section
variable {lo hi : Nat} (hlo : lo < hi) (hhi : hi ≤ 255)

/-- The linear map of a clamped percent stays in the range of the codes. -/
theorem lmap_percent_bounds (p : Byte) (h : lo ≤ hi) :
    lo ≤ lmap (min p.toNat 100) 0 100 lo hi ∧ lmap (min p.toNat 100) 0 100 lo hi ≤ hi :=
  lmap_bounds (min_le_right _ _) (by decide) h

include hlo hhi

/-- The code of a percent is its linear value: nothing is lost in the 8-bit result. -/
theorem codeOfPercent_toNat (p : Byte) :
    (codeOfPercent lo hi p).toNat = lmap (min p.toNat 100) 0 100 lo hi := by
  rw [codeOfPercent, clampPct_toNat]
  exact toNat_ofNat_byte ((lmap_percent_bounds p hlo.le).2.trans hhi)

/-- The code of a percent, written out. -/
theorem codeOfPercent_formula (p : Byte) :
    (codeOfPercent lo hi p).toNat = lo + min p.toNat 100 * (hi - lo) / 100 :=
  codeOfPercent_toNat hlo hhi p

/-- A code lies in its range. -/
theorem codeOfPercent_bounds (p : Byte) :
    lo ≤ (codeOfPercent lo hi p).toNat ∧ (codeOfPercent lo hi p).toNat ≤ hi := by
  rw [codeOfPercent_toNat hlo hhi]
  exact lmap_percent_bounds p hlo.le

/-- Percent 0 has the lowest code. -/
theorem codeOfPercent_of_eq_zero {p : Byte} (h : p.toNat = 0) :
    (codeOfPercent lo hi p).toNat = lo := by
  rw [codeOfPercent_toNat hlo hhi, h, Nat.zero_min, lmap_inLo]

/-- A percent from 100 on has the highest code. -/
theorem codeOfPercent_of_ge {p : Byte} (h : 100 ≤ p.toNat) : (codeOfPercent lo hi p).toNat = hi := by
  rw [codeOfPercent_toNat hlo hhi, min_eq_right h, lmap_inHi (by decide) hlo.le]

/-- A greater percent has no smaller code. -/
theorem codeOfPercent_mono {p q : Byte} (h : p.toNat ≤ q.toNat) :
    (codeOfPercent lo hi p).toNat ≤ (codeOfPercent lo hi q).toNat := by
  rw [codeOfPercent_toNat hlo hhi, codeOfPercent_toNat hlo hhi]
  exact lmap_mono (min_le_min_right _ h)

omit hhi

/-- The linear map of a clamped code is a percent. -/
theorem lmap_code_le (code : Byte) : lmap (clampCode code lo hi) lo hi 0 100 ≤ 100 :=
  (lmap_bounds (min_le_right _ _) hlo (by decide)).2

/-- The percent of a code is the linear value of the clamped code. -/
theorem percentOfCode_toNat (code : Byte) :
    (percentOfCode lo hi code).toNat = lmap (clampCode code lo hi) lo hi 0 100 :=
  toNat_ofNat_byte ((lmap_code_le hlo code).trans (by decide))

/-- The percent of a code, written out: the offset of the clamped code, scaled to 100. -/
theorem percentOfCode_formula (code : Byte) :
    (percentOfCode lo hi code).toNat = (clampCode code lo hi - lo) * 100 / (hi - lo) := by
  rw [percentOfCode_toNat hlo, lmap, Nat.zero_add]

/-- The percent of a code is at most 100. -/
theorem percentOfCode_le (code : Byte) : (percentOfCode lo hi code).toNat ≤ 100 := by
  rw [percentOfCode_toNat hlo]
  exact lmap_code_le hlo code

/-- The lowest code has percent 0. -/
theorem percentOfCode_of_eq_lo {code : Byte} (h : code.toNat = lo) :
    (percentOfCode lo hi code).toNat = 0 := by
  rw [percentOfCode_toNat hlo, clampCode, h, max_self, min_eq_left hlo.le, lmap_inLo]

/-- A code from the highest on has percent 100. -/
theorem percentOfCode_of_ge {code : Byte} (h : hi ≤ code.toNat) :
    (percentOfCode lo hi code).toNat = 100 := by
  rw [percentOfCode_toNat hlo, clampCode, min_eq_right (h.trans (le_max_left _ _)),
    lmap_inHi hlo (by decide)]

end

/-! ### P2CS, CS2P, P2HD, HD2P (R122 to R125) -/

/-- Settles O6: P2CS drives the code of the percent in the range of the current setting. With the defaults
percents up to 3 fall below one step of the code. -/
theorem p2csMapsPercentToCurrentSetting : Obligations.P2csMapsPercentToCurrentSetting := by
  rintro s ⟨⟨hlo, hhi⟩, -⟩
  obtain ⟨hlower, hupper⟩ := codeOfPercent_bounds hlo hhi s.inp.pct
  have hformula := codeOfPercent_formula hlo hhi s.inp.pct
  refine ⟨_, rfl, hformula, hlower, hupper, codeOfPercent_of_eq_zero hlo hhi,
    codeOfPercent_of_ge hlo hhi, fun hcfg hpct => ?_⟩
  have hstep : 0 + min s.inp.pct.toNat 100 * (31 - 0) / 100 = 0 := by omega
  rw [p2cs_eq, hformula, hcfg]
  exact hstep

/-- Settles O7: CS2P drives the percent of the code in the range of the current setting. -/
theorem cs2pMapsCurrentSettingToPercent : Obligations.Cs2pMapsCurrentSettingToPercent := by
  refine ⟨?_, by decide⟩
  rintro s ⟨⟨hlo, -⟩, -⟩
  exact ⟨_, rfl, percentOfCode_formula hlo _, percentOfCode_le hlo _, percentOfCode_of_eq_lo hlo,
    percentOfCode_of_ge hlo⟩

/-- Settles O8: P2HD drives the code of the percent in the range of the hold delay. -/
theorem p2hdMapsPercentToHoldDelay : Obligations.P2hdMapsPercentToHoldDelay := by
  rintro s ⟨-, ⟨hlo, hhi⟩, -⟩
  obtain ⟨hlower, hupper⟩ := codeOfPercent_bounds hlo hhi s.inp.pct
  exact ⟨_, rfl, codeOfPercent_formula hlo hhi _, hlower, hupper, codeOfPercent_of_eq_zero hlo hhi,
    codeOfPercent_of_ge hlo hhi⟩

/-- Settles O9: HD2P drives the percent of the code in the range of the hold delay. -/
theorem hd2pMapsHoldDelayToPercent : Obligations.Hd2pMapsHoldDelayToPercent := by
  rintro s ⟨-, ⟨hlo, -⟩, -⟩
  exact ⟨_, rfl, percentOfCode_formula hlo _, percentOfCode_le hlo _⟩

/-! ### The round trip (R130) -/

/-- The round trip of a percent, written out: its code lies in the range, so the clamp on the way back keeps
it. -/
theorem roundTrip_toNat {lo hi : Nat} (hlo : lo < hi) (hhi : hi ≤ 255) {p : Byte}
    (hp : p.toNat ≤ 100) : (percentOfCode lo hi (codeOfPercent lo hi p)).toNat =
      p.toNat * (hi - lo) / 100 * 100 / (hi - lo) := by
  obtain ⟨hlower, hupper⟩ := codeOfPercent_bounds hlo hhi p
  have hcode : (codeOfPercent lo hi p).toNat = lo + p.toNat * (hi - lo) / 100 := by
    rw [codeOfPercent_formula hlo hhi, min_eq_left hp]
  rw [percentOfCode_formula hlo, clampCode, max_eq_left hlower, min_eq_left hupper, hcode,
    Nat.add_sub_cancel_left]

/-- A percent that goes to a code and back comes back at most as it was: the linear map there and the one
back both truncate. -/
theorem roundTrip_le {lo hi : Nat} (hlo : lo < hi) (hhi : hi ≤ 255) {p : Byte} (hp : p.toNat ≤ 100) :
    (percentOfCode lo hi (codeOfPercent lo hi p)).toNat ≤ p.toNat := by
  rw [roundTrip_toNat hlo hhi hp]
  apply Nat.div_le_of_le_mul
  rw [Nat.mul_comm (hi - lo)]
  exact Nat.div_mul_le_self _ _

/-- The round trip loses at most `1 + 98 / R`: the first truncation loses at most 99 of `100 * code`, the
second at most `R - 1` of `R * percent`. -/
theorem roundTrip_loss_le {lo hi : Nat} (hlo : lo < hi) (hhi : hi ≤ 255) {p : Byte}
    (hp : p.toNat ≤ 100) :
    p.toNat - (percentOfCode lo hi (codeOfPercent lo hi p)).toNat ≤ 1 + 98 / (hi - lo) := by
  have hR : 0 < hi - lo := Nat.sub_pos_of_lt hlo
  rw [roundTrip_toNat hlo hhi hp]
  generalize hi - lo = R at hR ⊢
  generalize hk : p.toNat * R / 100 = k
  generalize hq : k * 100 / R = q
  have hthere : p.toNat * R < (k + 1) * 100 := by
    rw [Nat.mul_comm (k + 1), ← hk]
    exact Nat.lt_mul_div_succ _ (by decide)
  have hback : k * 100 < R * (q + 1) := hq ▸ Nat.lt_mul_div_succ _ hR
  have hloss : (p.toNat - q) * R ≤ 98 + R := by
    rw [Nat.sub_mul, Nat.mul_comm q]
    rw [Nat.add_mul] at hthere
    rw [Nat.mul_add] at hback
    omega
  rw [Nat.add_comm, ← Nat.add_div_right _ hR]
  exact (Nat.le_div_iff_mul_le hR).2 hloss

/-- Settles O12: both pairs are the round trip of a range; the defaults are evaluated. -/
theorem roundTripLosesAtMostOneUnit : Obligations.RoundTripLosesAtMostOneUnit := by
  refine ⟨?_, by decide⟩
  rintro c p ⟨⟨hcs, hcs255⟩, ⟨hhd, hhd255⟩, -⟩ hp
  rw [p2cs_eq, cs2p_eq, p2hd_eq, hd2p_eq]
  exact ⟨⟨roundTrip_le hcs hcs255 hp, roundTrip_loss_le hcs hcs255 hp⟩,
    ⟨roundTrip_le hhd hhd255 hp, roundTrip_loss_le hhd hhd255 hp⟩⟩

/-! ### P2GS (R126) -/

/-- In the dead zone P2GS gives the threshold. -/
theorem p2gs_toNat_of_lt_threshold {c : Params} (hc : c.gsThreshold ≤ 255) {p : Byte}
    (h : gsLinear c p < c.gsThreshold) : (p2gs c p).toNat = c.gsThreshold := by
  rw [p2gs, if_pos h]
  exact toNat_ofNat_byte hc

/-- Between the threshold and the maximum P2GS gives the linear value. -/
theorem p2gs_toNat_of_between {c : Params} (hc : c.gsMax ≤ 256) {p : Byte}
    (hlow : c.gsThreshold ≤ gsLinear c p) (htop : gsLinear c p < c.gsMax) :
    (p2gs c p).toNat = gsLinear c p := by
  rw [p2gs, if_neg hlow.not_gt, if_neg htop.not_ge]
  exact toNat_ofNat_byte (by omega)

/-- At the maximum P2GS wraps to 0. -/
theorem p2gs_of_top {c : Params} {p : Byte} (hlow : c.gsThreshold ≤ gsLinear c p)
    (htop : c.gsMax ≤ gsLinear c p) : p2gs c p = 0 := by
  rw [p2gs, if_neg hlow.not_gt, if_pos htop]

/-- The linear value is the maximum for the percents from 100 on. -/
theorem gsLinear_of_ge {c : Params} (hc : c.gsMin < c.gsMax) {p : Byte} (h : 100 ≤ p.toNat) :
    gsLinear c p = c.gsMax := by
  rw [gsLinear, clampPct_toNat, min_eq_right h]
  exact lmap_inHi (by decide) hc.le

/-- The linear value stays below the maximum for the percents below 100. -/
theorem gsLinear_lt {c : Params} (hc : c.gsMin < c.gsMax) {p : Byte} (h : p.toNat < 100) :
    gsLinear c p < c.gsMax := by
  rw [gsLinear, clampPct_toNat]
  exact lmap_lt_outHi (min_lt_of_left_lt h) (by decide) hc

/-- Below percent 100 P2GS is the linear value raised to the threshold. -/
theorem p2gs_toNat_of_lt {c : Params} (hc : c.MapperValid) {p : Byte} (h : p.toNat < 100) :
    (p2gs c p).toNat = max (gsLinear c p) c.gsThreshold := by
  obtain ⟨-, -, hmin, hthreshold, hmax⟩ := hc
  obtain hdead | hlow := lt_or_ge (gsLinear c p) c.gsThreshold
  · rw [p2gs_toNat_of_lt_threshold (by omega) hdead, max_eq_right hdead.le]
  · rw [p2gs_toNat_of_between hmax hlow (gsLinear_lt (hmin.trans hthreshold) h), max_eq_left hlow]

/-- From percent 100 on P2GS is 0. -/
theorem p2gs_of_ge {c : Params} (hc : c.MapperValid) {p : Byte} (h : 100 ≤ p.toNat) :
    p2gs c p = 0 := by
  obtain ⟨-, -, hmin, hthreshold, -⟩ := hc
  have htop : gsLinear c p = c.gsMax := gsLinear_of_ge (hmin.trans hthreshold) h
  exact p2gs_of_top (htop ▸ hthreshold.le) htop.ge

/-- The results of P2GS: 0 for full scale, and from the threshold to below the maximum otherwise. -/
theorem p2gs_range {c : Params} (hc : c.MapperValid) (p : Byte) :
    (100 ≤ p.toNat ∧ (p2gs c p).toNat = 0) ∨
      (p.toNat < 100 ∧ c.gsThreshold ≤ (p2gs c p).toNat ∧ (p2gs c p).toNat ≤ c.gsMax - 1) := by
  obtain h | h := le_or_gt 100 p.toNat
  · exact .inl ⟨h, congrArg BitVec.toNat (p2gs_of_ge hc h)⟩
  · refine .inr ⟨h, ?_⟩
    have hvalue := p2gs_toNat_of_lt hc h
    obtain ⟨-, -, hmin, hthreshold, -⟩ := hc
    have hbelow := gsLinear_lt (hmin.trans hthreshold) h
    omega

/-- Settles O10: below percent 100 the result is the linear value raised to the threshold, from 100 on it
is 0, and these are the percents at which the linear value reaches the maximum. -/
theorem p2gsClampsTheDeadZoneAndWrapsTheTop : Obligations.P2gsClampsTheDeadZoneAndWrapsTheTop := by
  intro s hc
  have hrange := p2gs_range hc s.inp.pct
  obtain ⟨-, -, hmin, hthreshold, hmax⟩ := hc
  have hbottom : s.inp.pct.toNat = 0 → gsLinear s.cfg s.inp.pct = s.cfg.gsMin := fun h0 => by
    rw [gsLinear, clampPct_toNat, h0]
    exact lmap_inLo _ _ _ _
  have hdead := p2gs_toNat_of_lt_threshold (c := s.cfg) (p := s.inp.pct) (by omega)
  refine ⟨_, gsLinear s.cfg s.inp.pct, rfl, ?_, hdead,
    fun hlow htop => congrArg BitVec.toNat (p2gs_of_top hlow htop),
    fun hlow htop => p2gs_toNat_of_between hmax hlow htop, ?_, ?_, fun h0 => hdead ?_, ?_⟩
  · rw [gsLinear, clampPct_toNat]; rfl
  · rw [gsLinear, clampPct_toNat, pctMin, pctMax,
      lmap_eq_outHi_iff (min_le_right _ _) (by decide) (hmin.trans hthreshold), min_eq_right_iff]
  · omega
  · exact (hbottom h0).trans_lt hmin
  · omega

/-! ### The shape of the three maps (R131) -/

/-- Below percent 100 a greater percent has no smaller scaler. -/
theorem p2gs_mono_of_lt {c : Params} (hc : c.MapperValid) {p q : Byte} (hpq : p.toNat ≤ q.toNat)
    (hq : q.toNat < 100) : (p2gs c p).toNat ≤ (p2gs c q).toNat := by
  have hlinear : gsLinear c p ≤ gsLinear c q := by
    rw [gsLinear, gsLinear, clampPct_toNat, clampPct_toNat]
    exact lmap_mono (min_le_min_right _ hpq)
  rw [p2gs_toNat_of_lt hc (hpq.trans_lt hq), p2gs_toNat_of_lt hc hq]
  exact max_le_max_right _ hlinear

/-- Settles O13: the shape of P2CS and P2HD is that of the codes of a range, and percents from 100 on are
one percent after CLAMP. -/
theorem shapeOfTheThreeMaps : Obligations.ShapeOfTheThreeMaps := by
  intro c p q hc
  have hrange := p2gs_range hc p
  have ⟨⟨hcs, hcs255⟩, ⟨hhd, hhd255⟩, _, hthreshold, hmax⟩ := hc
  refine ⟨fun hpq => ⟨codeOfPercent_mono hcs hcs255 hpq, codeOfPercent_mono hhd hhd255 hpq⟩,
    fun hp hq => ?_, fun hpq hq => p2gs_mono_of_lt hc hpq (by omega),
    p2gs_toNat_of_lt_threshold (by omega), codeOfPercent_bounds hcs hcs255 p,
    codeOfPercent_bounds hhd hhd255 p, hrange.imp And.right And.right,
    percentOfCode_le hcs p, percentOfCode_le hhd p⟩
  obtain ⟨hp2cs, hp2hd, -⟩ :=
    percentMaps_congr (c := c) ((clampPct_of_ge hp).trans (clampPct_of_ge hq).symm)
  exact ⟨hp2cs, hp2hd, p2gs_of_ge hc hp⟩

end Sys2Proof.Machine

/-! PROOFS. The family of spec/44_driver.md: the field update, the enable and disable stages, the setters and the
bring-up. -/

namespace Sys2Proof.Machine

/-! ### INSERT and EXTRACT (R150) -/

/-- An INSERT is read back modulo the field's width. -/
theorem extractField_insertField_toNat (r c : Word) {f : FieldRange} (h : f.Inside) :
    (extractField (insertField r f c) f).toNat = c.toNat % 2 ^ f.width := by
  have hle := h.1
  apply Nat.eq_of_testBit_eq
  intro i
  rw [Nat.testBit_mod_two_pow, BitVec.testBit_toNat, BitVec.testBit_toNat, getLsbD_extractField _ _ h,
    getLsbD_insertField _ _ _ h, FieldRange.width]
  grind

/-- An INSERT leaves a disjoint field alone. -/
theorem extractField_insertField_disjoint (r c : Word) {f g : FieldRange} (hf : f.Inside) (hg : g.Inside)
    (hfg : f.Disjoint g) : extractField (insertField r f c) g = extractField r g := by
  apply BitVec.eq_of_getLsbD_eq
  intro i _
  rw [getLsbD_extractField _ _ hg, getLsbD_extractField _ _ hg, getLsbD_insertField _ _ _ hf]
  grind

/-- Settles O48: both halves bit by bit. -/
theorem insertedFieldsReadBackAndSpareSiblings : Obligations.InsertedFieldsReadBackAndSpareSiblings :=
  fun r c _ hf => ⟨extractField_insertField_toNat r c hf,
    fun _ hg hfg => extractField_insertField_disjoint r c hf hg hfg⟩

/-- Repeating an INSERT changes nothing. -/
theorem insertField_insertField (r c : Word) {f : FieldRange} (h : f.Inside) :
    insertField (insertField r f c) f c = insertField r f c := by
  apply BitVec.eq_of_getLsbD_eq
  intro i _
  simp only [getLsbD_insertField _ _ _ h]
  grind

/-- The field lies in the word and is wide enough for the value (R6). -/
abbrev FieldFits (f : FieldRange) (c : Word) : Prop := f.Inside ∧ c.toNat < 2 ^ f.width

/-- An INSERT of a value that fits is read back as it is. -/
theorem extractField_insertField (r : Word) {f : FieldRange} {c : Word} (h : FieldFits f c) :
    extractField (insertField r f c) f = c :=
  BitVec.eq_of_toNat_eq
    ((extractField_insertField_toNat r c h.1).trans (Nat.mod_eq_of_lt h.2))

/-- An INSERT into a word of zeros is the value moved to the field's place. -/
theorem insertField_zero_toNat {f : FieldRange} {c : Word} (h : FieldFits f c) :
    (insertField 0 f c).toNat = c.toNat * 2 ^ f.lo := by
  obtain ⟨hin, hc⟩ := h
  have hle := hin.1
  apply Nat.eq_of_testBit_eq
  intro i
  rw [← Nat.shiftLeft_eq, Nat.testBit_shiftLeft, BitVec.testBit_toNat, BitVec.testBit_toNat,
    getLsbD_insertField _ _ _ hin]
  have habove (j : Nat) (hj : f.width ≤ j) : c.getLsbD j = false := by
    rw [← BitVec.testBit_toNat]
    exact Nat.testBit_lt_two_pow (hc.trans_le (Nat.pow_le_pow_right (by decide) hj))
  rw [FieldRange.width] at habove
  grind

/-! ### The fields of one RMW (R150) -/

/-- The pairs of an RMW name disjoint fields, each wide enough for its value. -/
abbrev FieldsFit (fields : List (FieldRange × Word)) : Prop :=
  fields.Pairwise (fun x y => x.1.Disjoint y.1) ∧ ∀ fc ∈ fields, FieldFits fc.1 fc.2

/-- From `r` to `v` each named field was set to its value, and every field disjoint from them all kept its
own. -/
structure FieldsSet (fields : List (FieldRange × Word)) (r v : Word) : Prop where
  readBack : ∀ fc ∈ fields, extractField v fc.1 = fc.2
  kept : ∀ g : FieldRange, g.Inside → (∀ fc ∈ fields, fc.1.Disjoint g) →
    extractField v g = extractField r g

theorem insertFields_cons (r : Word) (fc : FieldRange × Word) (fields : List (FieldRange × Word)) :
    insertFields r (fc :: fields) = insertFields (insertField r fc.1 fc.2) fields := rfl

/-- The successive INSERTs of an RMW set each of the fields: a later one spares those before it. -/
theorem insertFields_set {fields : List (FieldRange × Word)} (h : FieldsFit fields) (r : Word) :
    FieldsSet fields r (insertFields r fields) := by
  induction fields generalizing r with
  | nil => exact ⟨by simp, fun _ _ _ => rfl⟩
  | cons fc fields ih =>
    obtain ⟨hdisjoint, hfit⟩ := h
    obtain ⟨hhead, htail⟩ := List.pairwise_cons.1 hdisjoint
    obtain ⟨hfc, hfields⟩ := List.forall_mem_cons.1 hfit
    obtain ⟨hread, hkept⟩ := ih ⟨htail, hfields⟩ (insertField r fc.1 fc.2)
    rw [insertFields_cons]
    refine ⟨List.forall_mem_cons.2 ⟨?_, hread⟩, fun g hg hdis => ?_⟩
    · rw [hkept fc.1 hfc.1 fun x hx => (hhead x hx).symm]
      exact extractField_insertField r hfc
    · obtain ⟨hfcg, hrest⟩ := List.forall_mem_cons.1 hdis
      rw [hkept g hg hrest]
      exact extractField_insertField_disjoint r fc.2 hfc.1 hg hfcg

/-! ### RMW as a bank write (R115, R150) -/

/-- RMW is refused at an entry that has no value. -/
theorem rmw_unset {s : State} {a : Byte} (h : s.cache.read a.toNat = none)
    (fields : List (FieldRange × Word)) : rmw a fields s = .refused .cacheEntryUnset := by
  simp [rmw, h]

/-- `s` after a BANK_WRITE of `v` to register `a` on a reliable bus. -/
def wroteThrough (a : Byte) (v : Word) (s : State) : State := wroteRegister a v (storeEntry a v s)

@[simp] theorem wroteThrough_cfg (a : Byte) (v : Word) (s : State) :
    (wroteThrough a v s).cfg = s.cfg := rfl
@[simp] theorem wroteThrough_variant (a : Byte) (v : Word) (s : State) :
    (wroteThrough a v s).variant = s.variant := rfl
@[simp] theorem wroteThrough_bus (a : Byte) (v : Word) (s : State) :
    (wroteThrough a v s).bus = s.bus := rfl
@[simp] theorem wroteThrough_driver (a : Byte) (v : Word) (s : State) :
    (wroteThrough a v s).driver = s.driver := rfl
@[simp] theorem wroteThrough_calls (a : Byte) (v : Word) (s : State) :
    (wroteThrough a v s).calls = s.calls := rfl
@[simp] theorem wroteThrough_cache (a : Byte) (v : Word) (s : State) :
    (wroteThrough a v s).cache = s.cache.write a.toNat v := rfl

/-- A BANK_WRITE adds the events of one WRITE exchange to the record. -/
theorem wroteThrough_trace (a : Byte) (v : Word) (s : State) :
    ∃ rx, (wroteThrough a v s).trace = s.trace ++ exchangeEvents (encFrame a 1 v) rx :=
  ⟨_, completeExchange_events _ _ _ _⟩

/-- With the next call taken, a BANK_WRITE changes nothing but what a register write through the bank does. -/
theorem wroteThrough_sameBut (a : Byte) (v : Word) (rest : List Call) (s : State) :
    SameButWriteThrough s (wroteThrough a v (setCalls rest s)) := ⟨rfl, rfl, rfl⟩

section
variable {s u : State} {p : Proc} {rest : List Call} {a : Byte} (hc : s.calls = .proc p :: rest)
  (hbus : BusReady u)
include hc hbus

/-- A procedure that comes to a BANK_WRITE takes two steps on a reliable bus. -/
theorem runSteps_bankWrite {v : Word} (hp : runProc p (setCalls rest s) = bankWrite a v u) :
    runSteps 2 s = .next (wroteThrough a v u) :=
  runSteps_writeReg (u := storeEntry a v u) hc hp hbus

/-- A procedure that comes to an RMW of a set entry takes two steps on a reliable bus: one write, of the
entry's value with the fields inserted. -/
theorem runSteps_rmw {fields : List (FieldRange × Word)} {r : Word}
    (hp : runProc p (setCalls rest s) = rmw a fields u) (hr : u.cache.read a.toNat = some r) :
    runSteps 2 s = .next (wroteThrough a (insertFields r fields) u) :=
  runSteps_bankWrite hc hbus (hp.trans (rmw_stored hr fields))

end

/-- Settles O49: an RMW of a set entry is the write of the folded value, one of an unset entry is refused. -/
theorem rmwMakesOneBusWrite : Obligations.RmwMakesOneBusWrite := by
  intro s a fields rest hbus hc
  refine ⟨fun r hr => ?_, fun hunset => ?_⟩
  · exact ⟨_, runSteps_rmw (u := setCalls rest s) hc hbus rfl hr, rfl, wroteThrough_sameBut _ _ _ _,
      wroteRegister_writtenThrough (setCalls rest s) a _⟩
  · rw [step_proc hc]
    exact rmw_unset (s := setCalls rest s) hunset fields

/-! ### The hardware stage (R151, R152) -/

/-- `hardwareEnable` with a pin. -/
theorem hardwareEnabled_pin {s : State} {pin : Nat} (h : s.driver.hwPin = some pin) :
    hardwareEnabled s = pinWrite pin .low (recordHardware true s) := by
  simp [hardwareEnabled, h]

/-- `hardwareEnable` without a pin. -/
theorem hardwareEnabled_noPin {s : State} (h : s.driver.hwPin = none) :
    hardwareEnabled s = recordHardware true s := by
  simp [hardwareEnabled, h]

/-- `hardwareDisable` with a pin. -/
theorem hardwareDisabled_pin {s : State} {pin : Nat} (h : s.driver.hwPin = some pin) :
    hardwareDisabled s = pinWrite pin .high (recordHardware false s) := by
  simp [hardwareDisabled, h]

/-- `hardwareDisable` without a pin. -/
theorem hardwareDisabled_noPin {s : State} (h : s.driver.hwPin = none) : hardwareDisabled s = s := by
  simp [hardwareDisabled, h]

/-- Settles O50: the two procedures with a pin and without one. -/
theorem hardwareStageDrivesThePin : Obligations.HardwareStageDrivesThePin := by
  intro s rest
  refine ⟨fun hc => ?_, fun hc => ?_⟩ <;> rw [step_proc hc]
  · exact ⟨fun pin hpin => congrArg Host.Outcome.next (hardwareEnabled_pin (s := setCalls rest s) hpin),
      fun hpin => congrArg Host.Outcome.next (hardwareEnabled_noPin (s := setCalls rest s) hpin)⟩
  · exact ⟨fun pin hpin => congrArg Host.Outcome.next (hardwareDisabled_pin (s := setCalls rest s) hpin),
      fun hpin => congrArg Host.Outcome.next (hardwareDisabled_noPin (s := setCalls rest s) hpin)⟩

/-! ### The software stage (R153, R154) -/

@[simp] theorem hardwareEnabled_cfg (s : State) : (hardwareEnabled s).cfg = s.cfg :=
  (hostOnly_hardwareEnabled s).cfg
@[simp] theorem hardwareEnabled_cache (s : State) : (hardwareEnabled s).cache = s.cache :=
  (hostOnly_hardwareEnabled s).cache
@[simp] theorem hardwareDisabled_cfg (s : State) : (hardwareDisabled s).cfg = s.cfg :=
  (hostOnly_hardwareDisabled s).cfg
@[simp] theorem hardwareDisabled_cache (s : State) : (hardwareDisabled s).cache = s.cache :=
  (hostOnly_hardwareDisabled s).cache
@[simp] theorem hardwareEnabled_hwPin (s : State) :
    (hardwareEnabled s).driver.hwPin = s.driver.hwPin :=
  (hostOnly_hardwareEnabled s).hwPin
@[simp] theorem hardwareDisabled_hwPin (s : State) :
    (hardwareDisabled s).driver.hwPin = s.driver.hwPin :=
  (hostOnly_hardwareDisabled s).hwPin

/-- Taking the next call first or last makes no difference to `hardwareDisable`. -/
@[simp] theorem hardwareDisabled_setCalls (cs : List Call) (s : State) :
    hardwareDisabled (setCalls cs s) = setCalls cs (hardwareDisabled s) := by
  cases hpin : s.driver.hwPin with
  | some pin =>
    rw [hardwareDisabled_pin hpin, hardwareDisabled_pin (s := setCalls cs s) hpin]
    rfl
  | none => rw [hardwareDisabled_noPin hpin, hardwareDisabled_noPin (s := setCalls cs s) hpin]

@[simp] theorem hardwareEnabled_bound (s : State) :
    (hardwareEnabled s).driver.bound = s.driver.bound := by
  unfold hardwareEnabled
  split <;> rfl

@[simp] theorem hardwareDisabled_bound (s : State) :
    (hardwareDisabled s).driver.bound = s.driver.bound := by
  unfold hardwareDisabled
  split <;> rfl

theorem HostOnly.busReady {s t : State} (h : HostOnly s t) (hs : BusReady s) : BusReady t :=
  ⟨h.variant.trans hs.1, h.bus.trans hs.2⟩

/-- The premises of the Driver still hold when the hardware stage is switched on. -/
theorem driverReady_hardwareEnabled {s : State} (h : DriverReady s) : DriverReady (hardwareEnabled s) := by
  obtain ⟨hbus, hbound, hvalid⟩ := h
  exact ⟨(hostOnly_hardwareEnabled s).busReady hbus, by simpa using hbound, by simpa using hvalid⟩

/-- The premises of the Driver still hold when the hardware stage is switched off. -/
theorem driverReady_hardwareDisabled {s : State} (h : DriverReady s) :
    DriverReady (hardwareDisabled s) := by
  obtain ⟨hbus, hbound, hvalid⟩ := h
  exact ⟨(hostOnly_hardwareDisabled s).busReady hbus, by simpa using hbound, by simpa using hvalid⟩

/-- The off-time that stands for the software stage on or off (R6). -/
def offTime (c : Params) (b : Bool) : Word := if b then c.toffEnable else c.toffDisable

/-- The chopper-config word `r` with the off-time set for the software stage on or off. -/
def offTimeWord (c : Params) (b : Bool) (r : Word) : Word := insertFields r [(c.fToff, offTime c b)]

/-- `s` after the software stage was switched, with `r` the cached chopper-config word. -/
def softwareSwitched (b : Bool) (r : Word) (s : State) : State :=
  wroteThrough s.cfg.aChopconf (offTimeWord s.cfg b r) (recordSoftware b s)

@[simp] theorem softwareSwitched_cfg (b : Bool) (r : Word) (s : State) :
    (softwareSwitched b r s).cfg = s.cfg := rfl
@[simp] theorem softwareSwitched_driver (b : Bool) (r : Word) (s : State) :
    (softwareSwitched b r s).driver = { s.driver with swEnabled := b } := rfl
@[simp] theorem softwareSwitched_calls (b : Bool) (r : Word) (s : State) :
    (softwareSwitched b r s).calls = s.calls := rfl
@[simp] theorem softwareSwitched_cache (b : Bool) (r : Word) (s : State) :
    (softwareSwitched b r s).cache = s.cache.write s.cfg.aChopconf.toNat (offTimeWord s.cfg b r) := rfl

theorem softwareSwitched_writtenThrough (b : Bool) (r : Word) (s : State) :
    WrittenThrough s (softwareSwitched b r s) s.cfg.aChopconf (offTimeWord s.cfg b r) :=
  wroteRegister_writtenThrough (recordSoftware b s) s.cfg.aChopconf (offTimeWord s.cfg b r)

/-- Either off-time fits its field. -/
theorem fieldFits_offTime {c : Params} (h : c.Valid) (b : Bool) : FieldFits c.fToff (offTime c b) := by
  obtain ⟨-, ⟨-, -, -, -, hin, -⟩, -, -, -, hon, hoff, -⟩ := h
  cases b
  · exact ⟨hin, hoff⟩
  · exact ⟨hin, hon⟩

/-- The off-time field of the word holds the off-time, and every disjoint field is kept. -/
theorem offTimeWord_fields {c : Params} (h : c.Valid) (b : Bool) (r : Word) :
    extractField (offTimeWord c b r) c.fToff = offTime c b ∧
    ∀ g : FieldRange, g.Inside → c.fToff.Disjoint g →
      extractField (offTimeWord c b r) g = extractField r g :=
  have hfit := fieldFits_offTime h b
  ⟨extractField_insertField r hfit, fun _ hg => extractField_insertField_disjoint r _ hfit.1 hg⟩

/-- With a bank bound `softwareEnable` is one RMW. -/
theorem softwareEnable_bound {s : State} (h : s.driver.bound = true) : softwareEnable s =
    rmw s.cfg.aChopconf [(s.cfg.fToff, offTime s.cfg true)] (recordSoftware true s) :=
  throughBank_bound h _

/-- With a bank bound `softwareDisable` is one RMW. -/
theorem softwareDisable_bound {s : State} (h : s.driver.bound = true) : softwareDisable s =
    rmw s.cfg.aChopconf [(s.cfg.fToff, offTime s.cfg false)] (recordSoftware false s) :=
  throughBank_bound h _

/-- A procedure that comes to the RMW of the off-time takes two steps. -/
theorem runSteps_softwareSwitched {s u : State} {p : Proc} {rest : List Call} {r : Word} {b : Bool}
    (hc : s.calls = .proc p :: rest) (hu : BusReady u)
    (hp : runProc p (setCalls rest s) =
      rmw u.cfg.aChopconf [(u.cfg.fToff, offTime u.cfg b)] (recordSoftware b u))
    (hr : u.cache.read u.cfg.aChopconf.toNat = some r) :
    runSteps 2 s = .next (softwareSwitched b r u) := by
  rw [softwareSwitched, offTimeWord]
  exact runSteps_rmw (u := recordSoftware b u) hc hu hp hr

/-- Settles O51: either procedure writes the off-time word of its stage. -/
theorem softwareStageWritesTheOffTime : Obligations.SoftwareStageWritesTheOffTime := by
  intro s r rest hs hr
  have hfields (b : Bool) := offTimeWord_fields hs.2.2 b r
  have hwrote (b : Bool) := softwareSwitched_writtenThrough b r (setCalls rest s)
  refine ⟨fun hc => ?_, fun hc => ?_⟩
  · exact ⟨_, _, runSteps_softwareSwitched (u := setCalls rest s) (b := true) hc hs.1
      (softwareEnable_bound hs.2.1) hr, rfl, hwrote true, (hfields true).1, (hfields true).2, rfl⟩
  · exact ⟨_, _, runSteps_softwareSwitched (u := setCalls rest s) (b := false) hc hs.1
      (softwareDisable_bound hs.2.1) hr, rfl, hwrote false, (hfields false).1, (hfields false).2, rfl⟩

/-- Setting the same off-time again changes nothing. -/
theorem offTimeWord_offTimeWord {c : Params} (h : c.Valid) (b : Bool) (r : Word) :
    offTimeWord c b (offTimeWord c b r) = offTimeWord c b r :=
  insertField_insertField r _ (fieldFits_offTime h b).1

/-! ### `enable` and `disable` (R155, R156, R165) -/

/-- With a chopper-config word cached, the effective enable is the AND of the two stages (R165). -/
theorem effectiveEnable_stored {s : State} {v : Word} (h : s.cache.read s.cfg.aChopconf.toNat = some v) :
    effectiveEnable s =
      some (hardwareStage s && decide (extractField v s.cfg.fToff ≠ s.cfg.toffDisable)) := by
  simp [effectiveEnable, softwareStage, h]

/-- With the sentinel cached in the off-time field, the drive is not active. -/
theorem effectiveEnable_sentinel {s : State} {v : Word}
    (h : s.cache.read s.cfg.aChopconf.toNat = some v)
    (hv : extractField v s.cfg.fToff = s.cfg.toffDisable) : effectiveEnable s = some false := by
  rw [effectiveEnable_stored h]
  simp [hv]

/-- After the software stage was switched, the drive is active when it was switched on and the hardware stage
is on. -/
theorem effectiveEnable_softwareSwitched {s : State} (h : s.cfg.Valid) (b : Bool) (r : Word) :
    effectiveEnable (softwareSwitched b r s) = some (hardwareStage s && b) := by
  have hstage : hardwareStage (softwareSwitched b r s) = hardwareStage s := rfl
  have hne : s.cfg.toffEnable ≠ s.cfg.toffDisable := by
    obtain ⟨-, -, -, -, -, -, -, hne⟩ := h
    exact hne
  rw [effectiveEnable_stored (v := offTimeWord s.cfg b r) (by simp), hstage, softwareSwitched_cfg,
    (offTimeWord_fields h b r).1]
  cases b
  · simp [offTime]
  · simp [offTime, hne]

/-- `hardwareEnable` sets the record, with a pin or without one. -/
@[simp] theorem hardwareEnabled_hwEnabled (s : State) :
    (hardwareEnabled s).driver.hwEnabled = true := by
  unfold hardwareEnabled
  split <;> rfl

/-- After `hardwareEnable` the hardware stage is on: the pin is low, or there is none. -/
@[simp] theorem hardwareStage_hardwareEnabled (s : State) : hardwareStage (hardwareEnabled s) = true := by
  cases hpin : s.driver.hwPin with
  | some pin =>
    rw [hardwareEnabled_pin hpin]
    simp [hardwareStage, pinWrite, hpin]
  | none =>
    rw [hardwareEnabled_noPin hpin]
    simp [hardwareStage, recordHardware, hpin]

/-- A configured pin is high and the record says disabled. -/
abbrev HardwareOff (d : Driver) : Prop :=
  ∀ pin, d.hwPin = some pin → d.pinLevel = .high ∧ d.hwEnabled = false

/-- `hardwareDisable` leaves the hardware component off. -/
theorem hardwareDisabled_off (s : State) : HardwareOff (hardwareDisabled s).driver := by
  intro pin hpin
  rw [hardwareDisabled_hwPin] at hpin
  rw [hardwareDisabled_pin hpin]
  exact ⟨rfl, rfl⟩

/-- Switching the hardware component off again changes nothing of the Driver. -/
theorem hardwareDisabled_driver_of_off {s : State} (h : HardwareOff s.driver) :
    (hardwareDisabled s).driver = s.driver := by
  cases hpin : s.driver.hwPin with
  | some pin =>
    obtain ⟨hlevel, henabled⟩ := h pin hpin
    rw [hardwareDisabled_pin hpin]
    simp [pinWrite, recordHardware, ← hlevel, ← henabled]
  | none => rw [hardwareDisabled_noPin hpin]

/-- From `s` to `t` the drive was enabled: the hardware stage, then the write of the off-time into the cached
chopper-config word `r`. -/
structure Armed (r : Word) (s t : State) : Prop where
  cfg : t.cfg = s.cfg
  ready : DriverReady t
  hwPin : t.driver.hwPin = s.driver.hwPin
  records : t.driver.hwEnabled = true ∧ t.driver.swEnabled = true
  cache : t.cache = s.cache.write s.cfg.aChopconf.toNat (offTimeWord s.cfg true r)
  effective : effectiveEnable t = some true

/-- From `s` to `t` the drive was disabled: the hardware stage, then the write of the sentinel into the cached
chopper-config word `r`. -/
structure Disarmed (r : Word) (s t : State) : Prop where
  cfg : t.cfg = s.cfg
  ready : DriverReady t
  driver : t.driver = { (hardwareDisabled s).driver with swEnabled := false }
  cache : t.cache = s.cache.write s.cfg.aChopconf.toNat (offTimeWord s.cfg false r)
  trace : ∃ rx, t.trace = s.trace ++ pinEvents s.driver.hwPin .high ++
    exchangeEvents (encFrame s.cfg.aChopconf 1 (offTimeWord s.cfg false r)) rx
  effective : effectiveEnable t = some false

theorem Disarmed.hwPin {r : Word} {s t : State} (h : Disarmed r s t) :
    t.driver.hwPin = s.driver.hwPin := by
  rw [h.driver]
  exact hardwareDisabled_hwPin s

/-- A disabled drive has its hardware component off. -/
theorem Disarmed.off {r : Word} {s t : State} (h : Disarmed r s t) : HardwareOff t.driver := by
  rw [h.driver]
  exact hardwareDisabled_off s

/-- Disabling a disabled drive changes nothing of the Driver. -/
theorem Disarmed.again {q r : Word} {s t u : State} (h : Disarmed q s t) (k : Disarmed r t u) :
    u.driver = t.driver := by
  rw [k.driver, hardwareDisabled_driver_of_off h.off, h.driver]

section
variable {s : State} {rest : List Call} {r : Word} (hs : DriverReady s)
  (hr : s.cache.read s.cfg.aChopconf.toNat = some r)
include hs hr

/-- `enable` takes two steps. -/
theorem runSteps_enable (hc : s.calls = .proc .enable :: rest) :
    ∃ t, runSteps 2 s = .next t ∧ t.calls = rest ∧ Armed r s t := by
  have hu : DriverReady (hardwareEnabled (setCalls rest s)) :=
    driverReady_hardwareEnabled (s := setCalls rest s) hs
  refine ⟨_, runSteps_softwareSwitched (b := true) hc hu.1 (softwareEnable_bound hu.2.1)
    (by simpa using hr), by simp, by simp, hu, by simp, by simp, by simp, ?_⟩
  rw [effectiveEnable_softwareSwitched hu.2.2, hardwareStage_hardwareEnabled, Bool.and_true]

/-- `disable` takes two steps. -/
theorem runSteps_disable (hc : s.calls = .proc .disable :: rest) :
    ∃ t, runSteps 2 s = .next t ∧ t.calls = rest ∧ Disarmed r s t := by
  have hu : DriverReady (hardwareDisabled (setCalls rest s)) :=
    driverReady_hardwareDisabled (s := setCalls rest s) hs
  refine ⟨_, runSteps_softwareSwitched (b := false) hc hu.1 (softwareDisable_bound hu.2.1)
    (by simpa using hr), by simp, by simp, hu, by simp, by simp, ?_,
    by rw [effectiveEnable_softwareSwitched hu.2.2, Bool.and_false]⟩
  have htrace := hardwareDisabled_trace (setCalls rest s)
  obtain ⟨rx, hrx⟩ := wroteThrough_trace s.cfg.aChopconf (offTimeWord s.cfg false r)
    (recordSoftware false (hardwareDisabled (setCalls rest s)))
  refine ⟨rx, ?_⟩
  rw [softwareSwitched, hardwareDisabled_cfg, setCalls_cfg, hrx, recordSoftware_trace, htrace]
  rfl

end

/-- Settles O52: `enable` and two `disable`s one after the other. The second `disable` finds the hardware
component off and the off-time at the sentinel. -/
theorem enableArmsAndDisableDisarms : Obligations.EnableArmsAndDisableDisarms := by
  intro s r rest hs hr hc
  obtain ⟨t, hrunt, htcalls, ht⟩ := runSteps_enable hs hr hc
  have htread : t.cache.read t.cfg.aChopconf.toNat = some (offTimeWord s.cfg true r) := by
    rw [ht.cfg, ht.cache, memory_read_write_same]
  obtain ⟨u, hrunu, hucalls, hu⟩ := runSteps_disable ht.ready htread htcalls
  have huread : u.cache.read u.cfg.aChopconf.toNat =
      some (offTimeWord t.cfg false (offTimeWord s.cfg true r)) := by
    rw [hu.cfg, hu.cache, memory_read_write_same]
  obtain ⟨v, hrunv, hvcalls, hv⟩ := runSteps_disable hu.ready huread hucalls
  have hvalid : s.cfg.Valid := hs.2.2
  obtain ⟨hsentinel, hkept⟩ := offTimeWord_fields hvalid false (offTimeWord s.cfg true r)
  have hcache : v.cache = u.cache := by
    rw [hv.cache, hu.cache, hu.cfg, ht.cfg, memory_write_write, offTimeWord_offTimeWord hvalid]
  refine ⟨t, u, v, _, hrunt, ht.effective, ht.records.1, ht.records.2, hrunu, hu.effective,
    by rw [hu.driver], ?_, hsentinel, fun g hg hdis => ?_, fun pin hpin => hu.off pin ?_, hrunv,
    hu.again hv, hcache, hvcalls⟩
  · rw [hu.cache, ht.cfg, memory_read_write_same]
  · rw [hkept g hg hdis, (offTimeWord_fields hvalid true r).2 g hg hdis]
  · rw [hu.hwPin, ht.hwPin, hpin]

/-! ### The codes fit their fields (R6, R150) -/

/-- A code as an operand of INSERT has the value of the code. -/
@[simp] theorem codeWord_toNat (c : Byte) : (codeWord c).toNat = c.toNat := by
  rw [codeWord, BitVec.toNat_setWidth]
  omega

section
variable {c : Params} (h : c.Valid)
include h

theorem p2cs_toNat_le (p : Byte) : (p2cs c p).toNat ≤ c.csMax := by
  obtain ⟨⟨⟨hlo, hhi⟩, -⟩, -⟩ := h
  exact (codeOfPercent_bounds hlo hhi p).2

theorem fieldFits_fIrun (p : Byte) : FieldFits c.fIrun (codeWord (p2cs c p)) := by
  have hle := p2cs_toNat_le h p
  obtain ⟨-, ⟨-, -, hin, -⟩, -, -, ⟨-, hwide, -⟩, -⟩ := h
  exact ⟨hin, by rw [codeWord_toNat]; exact hle.trans_lt hwide⟩

theorem fieldFits_fIhold (p : Byte) : FieldFits c.fIhold (codeWord (p2cs c p)) := by
  have hle := p2cs_toNat_le h p
  obtain ⟨-, ⟨-, hin, -⟩, -, -, ⟨hwide, -⟩, -⟩ := h
  exact ⟨hin, by rw [codeWord_toNat]; exact hle.trans_lt hwide⟩

theorem fieldFits_fIholdDelay (p : Byte) : FieldFits c.fIholdDelay (codeWord (p2hd c p)) := by
  obtain ⟨⟨-, ⟨hlo, hhi⟩, -⟩, ⟨-, -, -, hin, -⟩, -, -, ⟨-, -, hwide⟩, -⟩ := h
  refine ⟨hin, ?_⟩
  rw [codeWord_toNat]
  exact (codeOfPercent_bounds hlo hhi p).2.trans_lt hwide

theorem fieldFits_fGs (p : Byte) : FieldFits c.fGs (codeWord (p2gs c p)) := by
  obtain ⟨-, ⟨hin, -⟩, -, ⟨hwidth, -⟩, -⟩ := h
  refine ⟨hin, ?_⟩
  rw [codeWord_toNat, hwidth]
  exact (p2gs c p).isLt

/-- The two current fields, set to codes of percents. -/
theorem fieldsFit_currents (run hold : Byte) :
    FieldsFit [(c.fIrun, codeWord (p2cs c run)), (c.fIhold, codeWord (p2cs c hold))] := by
  have hrun := fieldFits_fIrun h run
  have hhold := fieldFits_fIhold h hold
  obtain ⟨-, -, ⟨hdis, -⟩, -⟩ := h
  exact ⟨by simpa using hdis.symm, by simpa using ⟨hrun, hhold⟩⟩

/-- The three fields of `IHOLD_IRUN`, set to codes of percents. -/
theorem fieldsFit_allCurrents (run hold delay : Byte) :
    FieldsFit [(c.fIrun, codeWord (p2cs c run)), (c.fIhold, codeWord (p2cs c hold)),
      (c.fIholdDelay, codeWord (p2hd c delay))] := by
  have hrun := fieldFits_fIrun h run
  have hhold := fieldFits_fIhold h hold
  have hdelay := fieldFits_fIholdDelay h delay
  obtain ⟨-, -, ⟨hholdrun, hholddelay, hrundelay, -⟩, -⟩ := h
  exact ⟨by simpa using ⟨⟨hholdrun.symm, hrundelay⟩, hholddelay⟩,
    by simpa using ⟨hrun, hhold, hdelay⟩⟩

/-- The two flags of the automatic control, both set to one bit. -/
theorem fieldsFit_flags {b : Word} (hb : b.toNat < 2) :
    FieldsFit [(c.fAutoscale, b), (c.fAutograd, b)] := by
  obtain ⟨-, ⟨-, -, -, -, -, hscale, hgrad⟩, ⟨-, -, -, hdis⟩, ⟨-, hscale1, hgrad1⟩, -⟩ := h
  have hfits : FieldFits c.fAutoscale b ∧ FieldFits c.fAutograd b :=
    ⟨⟨hscale, by rw [hscale1]; exact hb⟩, ⟨hgrad, by rw [hgrad1]; exact hb⟩⟩
  exact ⟨by simpa using hdis, by simpa using hfits⟩

end

/-! ### The setters (R159 to R164) -/

/-- The word of the global-scale register for a percent: the code in its field, every other bit zero (R163). -/
def scalerWord (c : Params) (p : Byte) : Word := insertField 0 c.fGs (codeWord (p2gs c p))

theorem scalerWord_toNat {c : Params} (h : c.Valid) (p : Byte) :
    (scalerWord c p).toNat = (p2gs c p).toNat * 2 ^ c.fGs.lo := by
  rw [scalerWord, insertField_zero_toNat (fieldFits_fGs h p), codeWord_toNat]

section
variable {s : State} (h : s.driver.bound = true)
include h

theorem runProc_setRunCurrent (p : Byte) : runProc (.setRunCurrent p) s =
    rmw s.cfg.aIholdIrun [(s.cfg.fIrun, codeWord (p2cs s.cfg p))] s :=
  throughBank_bound h _

theorem runProc_setHoldCurrent (p : Byte) : runProc (.setHoldCurrent p) s =
    rmw s.cfg.aIholdIrun [(s.cfg.fIhold, codeWord (p2cs s.cfg p))] s :=
  throughBank_bound h _

theorem runProc_setHoldDelay (p : Byte) : runProc (.setHoldDelay p) s =
    rmw s.cfg.aIholdIrun [(s.cfg.fIholdDelay, codeWord (p2hd s.cfg p))] s :=
  throughBank_bound h _

theorem runProc_setAllCurrentValues (run hold delay : Byte) :
    runProc (.setAllCurrentValues run hold delay) s =
      rmw s.cfg.aIholdIrun
        [(s.cfg.fIrun, codeWord (p2cs s.cfg run)), (s.cfg.fIhold, codeWord (p2cs s.cfg hold)),
          (s.cfg.fIholdDelay, codeWord (p2hd s.cfg delay))] s :=
  throughBank_bound h _

theorem runProc_setGlobalScaler (p : Byte) : runProc (.setGlobalScaler p) s =
    bankWrite s.cfg.aGlobalScaler (scalerWord s.cfg p) s :=
  throughBank_bound h _

theorem runProc_enableAutomaticCurrentControl : runProc .enableAutomaticCurrentControl s =
    rmw s.cfg.aPwmconf [(s.cfg.fAutoscale, 1), (s.cfg.fAutograd, 1)] s :=
  throughBank_bound h _

theorem runProc_disableAutomaticCurrentControl : runProc .disableAutomaticCurrentControl s =
    rmw s.cfg.aPwmconf [(s.cfg.fAutoscale, 0), (s.cfg.fAutograd, 0)] s :=
  throughBank_bound h _

end

section
variable {s : State} {p : Proc} {rest : List Call} {a : Byte} {r : Word} (hbus : BusReady s)
  (hr : s.cache.read a.toNat = some r) (hc : s.calls = .proc p :: rest)
include hbus hr hc

/-- A procedure that is an RMW of fields writes the register once, sets the fields, and changes nothing but what
a register write through the bank does. -/
theorem runSteps_rmw_fields {fields : List (FieldRange × Word)} (hfit : FieldsFit fields)
    (hp : runProc p (setCalls rest s) = rmw a fields (setCalls rest s)) :
    ∃ t v, runSteps 2 s = .next t ∧ t.calls = rest ∧ SameButWriteThrough s t ∧
      WrittenThrough s t a v ∧ FieldsSet fields r v :=
  ⟨wroteThrough a (insertFields r fields) (setCalls rest s), insertFields r fields,
    runSteps_rmw (u := setCalls rest s) hc hbus hp hr, rfl, wroteThrough_sameBut _ _ _ _,
    wroteRegister_writtenThrough (setCalls rest s) a _, insertFields_set hfit r⟩

/-- A procedure that is an RMW of one field to a code. -/
theorem runSteps_rmw_code {f : FieldRange} {code : Byte} (hfit : FieldFits f (codeWord code))
    (hp : runProc p (setCalls rest s) = rmw a [(f, codeWord code)] (setCalls rest s)) :
    ∃ t v, runSteps 2 s = .next t ∧ t.calls = rest ∧ SameButWriteThrough s t ∧
      WrittenThrough s t a v ∧ (extractField v f).toNat = code.toNat ∧
      ∀ g : FieldRange, g.Inside → f.Disjoint g → extractField v g = extractField r g := by
  obtain ⟨t, v, hrun, hcalls, hsame, hwrote, hread, hkept⟩ :=
    runSteps_rmw_fields hbus hr hc (fields := [(f, codeWord code)]) ⟨by simp, by simpa using hfit⟩ hp
  simp only [List.forall_mem_singleton] at hread hkept
  exact ⟨t, v, hrun, hcalls, hsame, hwrote, by rw [hread, codeWord_toNat], hkept⟩

end

/-- Settles O55: each of the three is an RMW of one field. -/
theorem currentSettersWriteOneFieldEach : Obligations.CurrentSettersWriteOneFieldEach := by
  intro s p r rest ⟨hbus, hbound, hvalid⟩ hr
  have hbound : (setCalls rest s).driver.bound = true := hbound
  exact ⟨
    fun hc => runSteps_rmw_code hbus hr hc (fieldFits_fIrun hvalid p) (runProc_setRunCurrent hbound p),
    fun hc => runSteps_rmw_code hbus hr hc (fieldFits_fIhold hvalid p) (runProc_setHoldCurrent hbound p),
    fun hc => runSteps_rmw_code hbus hr hc (fieldFits_fIholdDelay hvalid p)
      (runProc_setHoldDelay hbound p)⟩

/-- Settles O56: an RMW of the three fields. -/
theorem setAllCurrentValuesIsOneWrite : Obligations.SetAllCurrentValuesIsOneWrite := by
  intro s run hold delay r rest ⟨hbus, hbound, hvalid⟩ hr hc
  have hbound : (setCalls rest s).driver.bound = true := hbound
  obtain ⟨t, v, hrun, hcalls, hsame, hwrote, hread, hkept⟩ :=
    runSteps_rmw_fields hbus hr hc (fieldsFit_allCurrents hvalid run hold delay)
      (runProc_setAllCurrentValues hbound run hold delay)
  simp only [List.forall_mem_cons, List.not_mem_nil, false_imp_iff, implies_true, and_true] at hread hkept
  obtain ⟨hirun, hihold, hdelay⟩ := hread
  refine ⟨t, v, hrun, hcalls, hsame, hwrote, by rw [hirun, codeWord_toNat],
    by rw [hihold, codeWord_toNat], by rw [hdelay, codeWord_toNat],
    fun g hg hdrun hdhold hddelay => hkept g hg ⟨hdrun, hdhold, hddelay⟩⟩

/-- Settles O57: the word written is the code moved to its place in a word of zeros. -/
theorem globalScalerIsWrittenWhole : Obligations.GlobalScalerIsWrittenWhole := by
  intro s p rest ⟨hbus, hbound, hvalid⟩ hc
  have hbound : (setCalls rest s).driver.bound = true := hbound
  refine ⟨_, _, runSteps_bankWrite (u := setCalls rest s) hc hbus (runProc_setGlobalScaler hbound p), rfl,
    wroteThrough_sameBut _ _ _ _, wroteRegister_writtenThrough (setCalls rest s) _ _,
    scalerWord_toNat hvalid p, fun hp => BitVec.eq_of_toNat_eq ?_⟩
  have hword := scalerWord_toNat hvalid p
  rw [p2gs_of_ge hvalid.1 hp] at hword
  simpa using hword

/-- An RMW of the two flags of the automatic control to one bit. -/
theorem runSteps_rmw_flags {s : State} {p : Proc} {rest : List Call} {r b : Word} (hs : DriverReady s)
    (hr : s.cache.read s.cfg.aPwmconf.toNat = some r) (hb : b.toNat < 2)
    (hp : runProc p (setCalls rest s) =
      rmw s.cfg.aPwmconf [(s.cfg.fAutoscale, b), (s.cfg.fAutograd, b)] (setCalls rest s))
    (hc : s.calls = .proc p :: rest) :
    ∃ t v, runSteps 2 s = .next t ∧ t.calls = rest ∧ SameButWriteThrough s t ∧
      WrittenThrough s t s.cfg.aPwmconf v ∧
      extractField v s.cfg.fAutoscale = b ∧ extractField v s.cfg.fAutograd = b ∧
      ∀ g : FieldRange, g.Inside → s.cfg.fAutoscale.Disjoint g → s.cfg.fAutograd.Disjoint g →
        extractField v g = extractField r g := by
  obtain ⟨t, v, hrun, hcalls, hsame, hwrote, hread, hkept⟩ :=
    runSteps_rmw_fields hs.1 hr hc (fieldsFit_flags hs.2.2 hb) hp
  simp only [List.forall_mem_cons, List.not_mem_nil, false_imp_iff, implies_true, and_true] at hread hkept
  exact ⟨t, v, hrun, hcalls, hsame, hwrote, hread.1, hread.2,
    fun g hg hscale hgrad => hkept g hg ⟨hscale, hgrad⟩⟩

/-- Settles O58: both procedures are an RMW of the two flags. -/
theorem automaticControlTogglesBothFlags : Obligations.AutomaticControlTogglesBothFlags := by
  intro s r rest hs hr
  have hbound : (setCalls rest s).driver.bound = true := hs.2.1
  exact ⟨
    runSteps_rmw_flags hs hr (by decide) (runProc_enableAutomaticCurrentControl hbound),
    runSteps_rmw_flags hs hr (by decide) (runProc_disableAutomaticCurrentControl hbound)⟩

/-! ### Setters and the rest of the state (R166) -/

/-- Two runs of a procedure end alike: the caches are equal and the same frame is evaluated and sent next, or
both are refused at an unset entry. -/
abbrev SameWrite (x y : Host.Outcome State Fault Refusal) : Prop :=
  (∃ s t, x = .next s ∧ y = .next t ∧ s.cache = t.cache ∧ s.calls.head? = t.calls.head? ∧
    s.out = t.out) ∨
  (x = .refused .cacheEntryUnset ∧ y = .refused .cacheEntryUnset)

section
variable {s t : State} (hcache : s.cache = t.cache) (hs : s.variant = .spi) (ht : t.variant = .spi)
include hcache hs ht

/-- A BANK_WRITE sees the cache alone. -/
theorem bankWrite_sameWrite (a : Byte) (v : Word) : SameWrite (bankWrite a v s) (bankWrite a v t) := by
  refine .inl ⟨_, _, bankWrite_spi hs a v, bankWrite_spi ht a v, ?_, rfl, rfl⟩
  simp [hcache]

/-- An RMW sees the cache alone. -/
theorem rmw_sameWrite (a : Byte) (fields : List (FieldRange × Word)) :
    SameWrite (rmw a fields s) (rmw a fields t) := by
  cases hr : s.cache.read a.toNat with
  | some r =>
    rw [rmw_stored hr, rmw_stored (hcache ▸ hr)]
    exact bankWrite_sameWrite hcache hs ht a _
  | none => exact .inr ⟨rmw_unset hr fields, rmw_unset (hcache ▸ hr) fields⟩

end

/-- Settles O59: each setter is an RMW or a BANK_WRITE whose operands are functions of its argument and the
parameters. -/
theorem settersDependOnlyOnArgumentAndCache : Obligations.SettersDependOnlyOnArgumentAndCache := by
  rintro s t p ⟨x, y, z, hp⟩ hcfg hcache hsbound htbound hs ht
  rcases hp with rfl | rfl | rfl | rfl | rfl
  · rw [runProc_setRunCurrent hsbound, runProc_setRunCurrent htbound, hcfg]
    exact rmw_sameWrite hcache hs ht _ _
  · rw [runProc_setHoldCurrent hsbound, runProc_setHoldCurrent htbound, hcfg]
    exact rmw_sameWrite hcache hs ht _ _
  · rw [runProc_setHoldDelay hsbound, runProc_setHoldDelay htbound, hcfg]
    exact rmw_sameWrite hcache hs ht _ _
  · rw [runProc_setGlobalScaler hsbound, runProc_setGlobalScaler htbound, hcfg]
    exact bankWrite_sameWrite hcache hs ht _ _
  · rw [runProc_setAllCurrentValues hsbound, runProc_setAllCurrentValues htbound, hcfg]
    exact rmw_sameWrite hcache hs ht _ _

/-! ### `minimizeMotorCurrent` (R158) -/

/-- The pairs of the RMW that sets both current fields to their minimum. -/
def minimumCurrents (c : Params) : List (FieldRange × Word) :=
  [(c.fIrun, codeWord (p2cs c 0)), (c.fIhold, codeWord (p2cs c 0))]

section
variable {c : Params} (h : c.Valid)
include h

/-- Percent 0 has the minimum current code. -/
theorem p2cs_zero_toNat : (p2cs c 0).toNat = c.csMin := by
  obtain ⟨⟨⟨hlo, hhi⟩, -⟩, -⟩ := h
  exact codeOfPercent_of_eq_zero hlo hhi rfl

/-- Percent 0 has the threshold as its scaler code: its linear value lies in the dead zone. -/
theorem p2gs_zero_toNat : (p2gs c 0).toNat = c.gsThreshold := by
  obtain ⟨⟨-, -, hmin, hthreshold, hmax⟩, -⟩ := h
  have hlinear : gsLinear c 0 = c.gsMin := lmap_inLo _ _ _ _
  exact p2gs_toNat_of_lt_threshold (by omega) (hlinear.trans_lt hmin)

/-- The scaler's field of the word for percent 0 holds the threshold. -/
theorem extractField_scalerWord_zero :
    (extractField (scalerWord c 0) c.fGs).toNat = c.gsThreshold := by
  rw [scalerWord, extractField_insertField _ (fieldFits_fGs h 0), codeWord_toNat, p2gs_zero_toNat h]

/-- In the word with both current fields set to their minimum, every other field is kept, the hold delay among
them. -/
theorem minimumCurrents_word (r : Word) :
    (extractField (insertFields r (minimumCurrents c)) c.fIrun).toNat = c.csMin ∧
    (extractField (insertFields r (minimumCurrents c)) c.fIhold).toNat = c.csMin ∧
    extractField (insertFields r (minimumCurrents c)) c.fIholdDelay = extractField r c.fIholdDelay ∧
    ∀ f : FieldRange, f.Inside → c.fIrun.Disjoint f → c.fIhold.Disjoint f →
      extractField (insertFields r (minimumCurrents c)) f = extractField r f := by
  obtain ⟨hread, hkept⟩ := insertFields_set (fieldsFit_currents h 0 0) r
  simp only [List.forall_mem_cons, List.not_mem_nil, false_imp_iff, implies_true, and_true] at hread hkept
  have hcode := p2cs_zero_toNat h
  rw [← codeWord_toNat] at hcode
  obtain ⟨-, ⟨-, -, -, hin, -⟩, ⟨-, hdelay, hrundelay, -⟩, -⟩ := h
  exact ⟨hread.1 ▸ hcode, hread.2 ▸ hcode, hkept _ hin ⟨hrundelay, hdelay⟩,
    fun f hf hrun hhold => hkept f hf ⟨hrun, hhold⟩⟩

end

/-- A write to one register leaves the cached value of another alone. -/
theorem memory_read_write_ne {a b : Byte} (h : b ≠ a) (m : Memory) (v : Word) :
    (m.write a.toNat v).read b.toNat = m.read b.toNat :=
  memory_read_write_other _ _ _ _ (BitVec.toNat_inj.not.2 h)

/-- With a bank bound `minimizeMotorCurrent` is a BANK_WRITE of the scaler's word, with the RMW of both currents
as the next call after it. -/
theorem runProc_minimizeMotorCurrent {s : State} (h : s.driver.bound = true) :
    runProc .minimizeMotorCurrent s = bankWrite s.cfg.aGlobalScaler (scalerWord s.cfg 0)
      (pushCalls [.proc (.rmw s.cfg.aIholdIrun (minimumCurrents s.cfg))] s) := by
  have hproc : runProc .minimizeMotorCurrent s = minimizeMotorCurrent s := rfl
  rw [hproc, minimizeMotorCurrent, throughBank_bound h]
  rfl

/-- From `s` to `t` the scaler and both currents were written at their minimum, with `r` the cached
`IHOLD_IRUN` word. -/
structure Minimized (r : Word) (s t : State) : Prop where
  cfg : t.cfg = s.cfg
  ready : DriverReady t
  driver : t.driver = s.driver
  cache : t.cache = (s.cache.write s.cfg.aGlobalScaler.toNat (scalerWord s.cfg 0)).write
    s.cfg.aIholdIrun.toNat (insertFields r (minimumCurrents s.cfg))
  trace : ∃ rx ry, t.trace = s.trace ++
    exchangeEvents (encFrame s.cfg.aGlobalScaler 1 (scalerWord s.cfg 0)) rx ++
    exchangeEvents (encFrame s.cfg.aIholdIrun 1 (insertFields r (minimumCurrents s.cfg))) ry

/-- `minimizeMotorCurrent` takes four steps, two for each of its writes. -/
theorem runSteps_minimizeMotorCurrent {s : State} {rest : List Call} {r : Word} (hs : DriverReady s)
    (hne : s.cfg.aIholdIrun ≠ s.cfg.aGlobalScaler)
    (hr : s.cache.read s.cfg.aIholdIrun.toNat = some r)
    (hc : s.calls = .proc .minimizeMotorCurrent :: rest) :
    ∃ t, runSteps 4 s = .next t ∧ t.calls = rest ∧ Minimized r s t := by
  obtain ⟨u, hu⟩ : ∃ u, u = wroteThrough s.cfg.aGlobalScaler (scalerWord s.cfg 0)
      (pushCalls [.proc (.rmw s.cfg.aIholdIrun (minimumCurrents s.cfg))] (setCalls rest s)) := ⟨_, rfl⟩
  have hrunu : runSteps 2 s = .next u := by
    rw [hu]
    exact runSteps_bankWrite (u := pushCalls _ (setCalls rest s)) hc hs.1
      (runProc_minimizeMotorCurrent (s := setCalls rest s) hs.2.1)
  have huready : DriverReady u := hu ▸ hs
  have hucalls : u.calls = .proc (.rmw s.cfg.aIholdIrun (minimumCurrents s.cfg)) :: rest := hu ▸ rfl
  have huread : (setCalls rest u).cache.read s.cfg.aIholdIrun.toNat = some r := by
    rw [setCalls_cache, hu, wroteThrough_cache, memory_read_write_ne hne]
    exact hr
  have hrunt := runSteps_rmw (u := setCalls rest u) hucalls huready.1 rfl huread
  refine ⟨_, (runSteps_add 2 2 hrunu).trans hrunt, rfl, ?_⟩
  obtain ⟨rx, hrx⟩ := wroteThrough_trace s.cfg.aGlobalScaler (scalerWord s.cfg 0)
    (pushCalls [.proc (.rmw s.cfg.aIholdIrun (minimumCurrents s.cfg))] (setCalls rest s))
  obtain ⟨ry, hry⟩ := wroteThrough_trace s.cfg.aIholdIrun (insertFields r (minimumCurrents s.cfg))
    (setCalls rest u)
  refine ⟨by simp [hu], huready, by simp [hu], by simp [hu], rx, ry, ?_⟩
  rw [hry, setCalls_trace, hu, hrx, pushCalls_trace, setCalls_trace]

/-- Settles O53: the two writes, and the fields of the two words. -/
theorem minimizeMotorCurrentWritesTwoRegisters : Obligations.MinimizeMotorCurrentWritesTwoRegisters := by
  intro s r rest hs hdistinct hr hc
  obtain ⟨⟨hne, -⟩, -⟩ := hdistinct
  have hvalid : s.cfg.Valid := hs.2.2
  obtain ⟨t, hrun, hcalls, -, -, -, hcache, rx, ry, htrace⟩ :=
    runSteps_minimizeMotorCurrent hs hne.symm hr hc
  refine ⟨t, _, _, rx, ry, hrun, hcalls, htrace, ?_, ?_, ?_, minimumCurrents_word hvalid r⟩
  · rw [hcache, memory_read_write_ne hne, memory_read_write_same]
  · rw [hcache, memory_read_write_same]
  · rw [scalerWord_toNat hvalid, p2gs_zero_toNat hvalid]

/-! ### `setup` (R157) -/

/-- `s` with the bank bound and the three procedures of the bring-up placed in front of `rest`. -/
def placedBringUp (rest : List Call) (s : State) : State :=
  pushCalls [.proc .disable, .proc .minimizeMotorCurrent, .proc .disableAutomaticCurrentControl]
    (bindBank (setCalls rest s))

/-- `setup` binds the bank and places its three procedures as the next calls. -/
theorem step_setup {s : State} {rest : List Call} (hc : s.calls = .proc .setup :: rest) :
    step s = .next (placedBringUp rest s) := step_proc hc

/-- The pairs of the RMW that clears both flags of the automatic control. -/
def clearedFlags (c : Params) : List (FieldRange × Word) := [(c.fAutoscale, 0), (c.fAutograd, 0)]

/-- In the word with both flags cleared, every other field is kept. -/
theorem clearedFlags_word {c : Params} (h : c.Valid) (r : Word) :
    extractField (insertFields r (clearedFlags c)) c.fAutoscale = 0 ∧
    extractField (insertFields r (clearedFlags c)) c.fAutograd = 0 ∧
    ∀ f : FieldRange, f.Inside → c.fAutoscale.Disjoint f → c.fAutograd.Disjoint f →
      extractField (insertFields r (clearedFlags c)) f = extractField r f := by
  obtain ⟨hread, hkept⟩ := insertFields_set (fieldsFit_flags h (b := 0) (by decide)) r
  simp only [List.forall_mem_cons, List.not_mem_nil, false_imp_iff, implies_true, and_true] at hread hkept
  exact ⟨hread.1, hread.2, fun f hf hscale hgrad => hkept f hf ⟨hscale, hgrad⟩⟩

/-- From `s` to `t` the drive was brought up: disabled, its currents minimised, and the automatic control
switched off, with `rc`, `ri` and `rp` the cached words of the chopper-config, `IHOLD_IRUN` and PWM-config
registers. -/
structure BroughtUp (rc ri rp : Word) (s t : State) : Prop where
  cfg : t.cfg = s.cfg
  driver : t.driver = { (hardwareDisabled s).driver with swEnabled := false }
  cache : t.cache = (((s.cache.write s.cfg.aChopconf.toNat (offTimeWord s.cfg false rc)).write
    s.cfg.aGlobalScaler.toNat (scalerWord s.cfg 0)).write
    s.cfg.aIholdIrun.toNat (insertFields ri (minimumCurrents s.cfg))).write
    s.cfg.aPwmconf.toNat (insertFields rp (clearedFlags s.cfg))
  trace : ∃ x1 x2 x3 x4, t.trace = s.trace ++ pinEvents s.driver.hwPin .high ++
    exchangeEvents (encFrame s.cfg.aChopconf 1 (offTimeWord s.cfg false rc)) x1 ++
    exchangeEvents (encFrame s.cfg.aGlobalScaler 1 (scalerWord s.cfg 0)) x2 ++
    exchangeEvents (encFrame s.cfg.aIholdIrun 1 (insertFields ri (minimumCurrents s.cfg))) x3 ++
    exchangeEvents (encFrame s.cfg.aPwmconf 1 (insertFields rp (clearedFlags s.cfg))) x4

/-- The three procedures of the bring-up take eight steps. -/
theorem runSteps_bringUp {s : State} {rc ri rp : Word} {rest : List Call} (hs : DriverReady s)
    (hdistinct : s.cfg.AddressesDistinct) (hrc : s.cache.read s.cfg.aChopconf.toNat = some rc)
    (hri : s.cache.read s.cfg.aIholdIrun.toNat = some ri)
    (hrp : s.cache.read s.cfg.aPwmconf.toNat = some rp)
    (hc : s.calls = .proc .disable :: .proc .minimizeMotorCurrent ::
      .proc .disableAutomaticCurrentControl :: rest) :
    ∃ t, runSteps 8 s = .next t ∧ t.calls = rest ∧ BroughtUp rc ri rp s t := by
  obtain ⟨⟨hgi, -, hgp, hic, hip, hcp⟩, -⟩ := hdistinct
  obtain ⟨u, hrunu, hucalls, hu⟩ := runSteps_disable hs hrc hc
  have huri : u.cache.read u.cfg.aIholdIrun.toNat = some ri := by
    rw [hu.cfg, hu.cache, memory_read_write_ne hic, hri]
  obtain ⟨v, hrunv, hvcalls, hv⟩ :=
    runSteps_minimizeMotorCurrent hu.ready (by rw [hu.cfg]; exact hgi.symm) huri hucalls
  have hcfg : v.cfg = s.cfg := hv.cfg.trans hu.cfg
  have hvrp : v.cache.read s.cfg.aPwmconf.toNat = some rp := by
    rw [hv.cache, hu.cache, hu.cfg, memory_read_write_ne hip.symm, memory_read_write_ne hgp.symm,
      memory_read_write_ne hcp.symm, hrp]
  have hproc := runProc_disableAutomaticCurrentControl (s := setCalls rest v) hv.ready.2.1
  rw [setCalls_cfg, hcfg] at hproc
  have hrunt := runSteps_rmw (u := setCalls rest v) hvcalls hv.ready.1 hproc hvrp
  have hrun : runSteps 8 s = _ :=
    (runSteps_add 2 6 hrunu).trans ((runSteps_add 4 2 hrunv).trans hrunt)
  refine ⟨_, hrun, rfl, hcfg, ?_, ?_, ?_⟩
  · rw [wroteThrough_driver, setCalls_driver, hv.driver, hu.driver]
  · rw [wroteThrough_cache, setCalls_cache, hv.cache, hu.cache, hu.cfg]
    rfl
  · obtain ⟨x1, hx1⟩ := hu.trace
    obtain ⟨x2, x3, hx23⟩ := hv.trace
    obtain ⟨x4, hx4⟩ := wroteThrough_trace s.cfg.aPwmconf (insertFields rp (clearedFlags s.cfg))
      (setCalls rest v)
    exact ⟨x1, x2, x3, x4, by rw [hu.cfg] at hx23; rw [← hx1, ← hx23]; exact hx4⟩

/-- What the cache holds of the four registers after the bring-up: each the last word written to it. -/
theorem BroughtUp.reads {rc ri rp : Word} {s t : State} (h : BroughtUp rc ri rp s t)
    (hdistinct : s.cfg.AddressesDistinct) :
    t.cache.read s.cfg.aChopconf.toNat = some (offTimeWord s.cfg false rc) ∧
    t.cache.read s.cfg.aGlobalScaler.toNat = some (scalerWord s.cfg 0) ∧
    t.cache.read s.cfg.aIholdIrun.toNat = some (insertFields ri (minimumCurrents s.cfg)) ∧
    t.cache.read s.cfg.aPwmconf.toNat = some (insertFields rp (clearedFlags s.cfg)) := by
  obtain ⟨⟨hgi, hgc, hgp, hic, hip, hcp⟩, -⟩ := hdistinct
  rw [h.cache]
  refine ⟨?_, ?_, ?_, memory_read_write_same _ _ _⟩
  · rw [memory_read_write_ne hcp, memory_read_write_ne hic.symm, memory_read_write_ne hgc.symm,
      memory_read_write_same]
  · rw [memory_read_write_ne hgp, memory_read_write_ne hgi, memory_read_write_same]
  · rw [memory_read_write_ne hip, memory_read_write_same]

/-- Settles O54: `setup` binds the bank, so that the bring-up can run, and the four words it writes are those of
the off-time, the scaler, the currents and the flags. -/
theorem setupLeavesTheDriveDisabledAtMinimumCurrent :
    Obligations.SetupLeavesTheDriveDisabledAtMinimumCurrent := by
  intro s rc ri rp rest hbus hvalid hdistinct hrc hri hrp hc
  have hready : DriverReady (placedBringUp rest s) := ⟨hbus, rfl, hvalid⟩
  obtain ⟨t, hrun, hcalls, ht⟩ := runSteps_bringUp hready hdistinct hrc hri hrp rfl
  obtain ⟨hreadc, hreadg, hreadi, hreadp⟩ := ht.reads hdistinct
  obtain ⟨x1, x2, x3, x4, htrace⟩ := ht.trace
  obtain ⟨hsentinel, hkeptc⟩ := offTimeWord_fields hvalid false rc
  obtain ⟨hirun, hihold, hdelay, hkepti⟩ := minimumCurrents_word hvalid ri
  obtain ⟨hscale, hgrad, hkeptp⟩ := clearedFlags_word hvalid rp
  refine ⟨t, _, _, _, _, x1, x2, x3, x4, pinEvents s.driver.hwPin .high,
    (runSteps_next 8 (step_setup hc)).trans hrun, hcalls, htrace, fun pin hpin => ?_, fun hpin => ?_, ?_, ?_,
    ?_, hreadc, hsentinel, hkeptc, hreadg, extractField_scalerWord_zero hvalid, hreadi, hirun, hihold, hdelay,
    hkepti, hreadp, hscale, hgrad, hkeptp⟩
  · rw [hpin, ht.driver, hardwareDisabled_pin (s := placedBringUp rest s) hpin]
    exact ⟨rfl, rfl, rfl⟩
  · rw [hpin, ht.driver, hardwareDisabled_noPin (s := placedBringUp rest s) hpin]
    exact ⟨rfl, rfl⟩
  · rw [ht.driver]
    exact hardwareDisabled_bound _
  · rw [ht.driver]
  · exact effectiveEnable_sentinel (by rw [ht.cfg]; exact hreadc) (by rw [ht.cfg]; exact hsentinel)

end Sys2Proof.Machine

/-! PROOFS. The family of spec/60_exceptions.md: no instruction and no procedure raises an exception, and only an
exchange on a bus that never completes leaves the machine stuck. -/

namespace Sys2Proof.Machine

/-! ### Where a fault comes from (R94, U9) -/

/-- The machine is not stuck exactly when the outcome is no fault. -/
theorem notStuck_iff {o : Host.Outcome State Fault Refusal} : notStuck o = true ↔ ∀ f, o ≠ .fault f := by
  cases o with
  | fault r => exact ⟨nofun, fun h => absurd rfl (h r)⟩
  | next _ | refused _ => exact ⟨fun _ _ => nofun, fun _ => rfl⟩

/-- If an exchange faults, it was tried on the SPI variant over a bus that never completes. -/
theorem exchange_fault {s : State} {a : BitVec 7} {w : BitVec 1} {d : Word} {f : Fault}
    (h : exchange a w d s = .fault f) : s.bus = .hangs ∧ s.variant = .spi := by
  cases hv : s.variant with
  | uart => rw [exchange_uart hv] at h; cases h
  | spi =>
    cases hb : s.bus with
    | notConfigured => rw [exchange_notConfigured hv hb] at h; cases h
    | reliable => rw [exchange_reliable hv hb] at h; cases h
    | garbage => rw [exchange_garbage hv hb] at h; cases h
    | hangs => exact ⟨rfl, rfl⟩

/-- If an instruction faults, it is a datagram and its exchange faulted: no operation of the block faults, and a
reply that has arrived needs nothing more of the bus. -/
theorem exec_fault {i : Instr} {s : State} {f : Fault} (h : exec i s = .fault f) :
    ∃ a w d, exchange a w d s = .fault f := by
  cases i with
  | write a d => exact ⟨a, 1, d, h⟩
  | read a d => exact ⟨a, 0, d, h⟩
  | reply st d =>
    cases hv : s.variant with
    | uart => rw [exec_reply_uart hv] at h; cases h
    | spi => rw [exec_reply_spi hv] at h; cases h
  | enc | dec | p2cs | cs2p | p2hd | hd2p | p2gs | reserved7 => cases h

/-! ### No procedure is stuck itself (R180)

A procedure only places its exchanges as calls, so whatever the bus does is left to the steps that follow. -/

theorem notStuck_xchg (tx : Frame) (s : State) : notStuck (xchg tx s) = true := by
  unfold xchg
  split <;> rfl

theorem notStuck_writeReg (a : Byte) (v : Word) (s : State) : notStuck (writeReg a v s) = true := by
  unfold writeReg
  split <;> rfl

theorem notStuck_readReg (a : Byte) (s : State) : notStuck (readReg a s) = true := by
  unfold readReg
  split <;> rfl

theorem notStuck_bankWrite (a : Byte) (v : Word) (s : State) : notStuck (bankWrite a v s) = true :=
  notStuck_writeReg a v (storeEntry a v s)

theorem notStuck_getStored (a : Byte) (s : State) : notStuck (getStored a s) = true := by
  unfold getStored
  split <;> rfl

theorem notStuck_rmw (a : Byte) (fields : List (FieldRange × Word)) (s : State) :
    notStuck (rmw a fields s) = true := by
  cases hr : s.cache.read a.toNat with
  | some r => rw [rmw_stored hr]; exact notStuck_bankWrite a _ s
  | none => rw [rmw_unset hr]; rfl

/-- The check for a bound bank refuses and never faults. -/
theorem notStuck_throughBank {k : State → Host.Outcome State Fault Refusal}
    (h : ∀ t, notStuck (k t) = true) (s : State) : notStuck (throughBank k s) = true := by
  unfold throughBank
  split
  · exact h s
  · rfl

/-- No procedure is stuck, on any bus. -/
theorem notStuck_runProc (p : Proc) (s : State) : notStuck (runProc p s) = true := by
  cases p with
  | xchg tx => exact notStuck_xchg tx s
  | writeReg a v => exact notStuck_writeReg a v s
  | readReg a => exact notStuck_readReg a s
  | bankWrite a v => exact notStuck_bankWrite a v s
  | getStored a => exact notStuck_getStored a s
  | bankRead a => exact notStuck_readReg a (pushCalls [.proc (.bankStore a)] s)
  | rmw a fields => exact notStuck_rmw a fields s
  | minimizeMotorCurrent | setGlobalScaler _ =>
    exact notStuck_throughBank (fun _ => notStuck_bankWrite _ _ _) _
  | softwareEnable | softwareDisable | enable | disable | setRunCurrent _ | setHoldCurrent _ | setHoldDelay _
  | setAllCurrentValues _ _ _ | enableAutomaticCurrentControl | disableAutomaticCurrentControl =>
    exact notStuck_throughBank (fun _ => notStuck_rmw _ _ _) _
  | returnPayload | bankStore _ | hardwareEnable | hardwareDisable | setup | statusRead => rfl

/-! ### The step -/

/-- If a step faults, the bus never completes and the variant is SPI: the next call is a word that decodes to a
datagram, for no other call can fault. -/
theorem step_fault {s : State} {f : Fault} (h : step s = .fault f) : s.bus = .hangs ∧ s.variant = .spi := by
  cases hc : s.calls with
  | nil => rw [step_idle hc] at h; cases h
  | cons call rest =>
    cases call with
    | drive inp => rw [step_drive hc] at h; cases h
    | proc p =>
      rw [step_proc hc] at h
      exact absurd h (notStuck_iff.1 (notStuck_runProc p _) f)
    | word c =>
      cases hd : decode c with
      | error e => rw [step_word_refused hc hd] at h; cases h
      | ok i =>
        rw [step_word hc hd] at h
        obtain ⟨a, w, d, hx⟩ := exec_fault h
        exact exchange_fault (s := setCalls rest s) hx

/-- Settles O39: both halves say where a fault of a step comes from. -/
theorem onlyAHangingBusLeavesTheMachineStuck : Obligations.OnlyAHangingBusLeavesTheMachineStuck :=
  fun _ => ⟨fun hbus => notStuck_iff.2 fun _ hf => hbus (step_fault hf).1, fun _ hf => step_fault hf⟩

end Sys2Proof.Machine

/-! PROOFS. The model's own choices: the values of the state at reset that no rule of the spec states, and the Driver's
procedures before `setup` (spec/70_reset_and_hazards.md R202; assumption log 2, 4, 6, 7, 10, 11, 12, 13). -/

namespace Sys2Proof.Machine

/-- The default parameters meet the constraints of R5 and R6. -/
theorem params_defaults_valid : Params.defaults.Valid := by decide

/-- The default column names four different registers. -/
theorem params_defaults_addressesDistinct : Params.defaults.AddressesDistinct := by decide

/-- Settles O41: the fields of the reset state, the laws of the default parameters, and an idle step. -/
theorem resetValuesTheModelChose : Obligations.ResetValuesTheModelChose :=
  have hbus : BusReady State.reset := ⟨rfl, rfl⟩
  ⟨rfl, params_defaults_valid, params_defaults_addressesDistinct, hbus, rfl, rfl, rfl, rfl, rfl, step_idle rfl⟩

/-- Without a bank bound, a procedure that works through the bank is refused, whatever it would do. -/
theorem throughBank_unbound {s : State} (h : s.driver.bound = false)
    (k : State → Host.Outcome State Fault Refusal) : throughBank k s = .refused .bankNotBound := by
  simp [throughBank, h]

/-- Without a bank bound `softwareEnable` is refused. -/
theorem softwareEnable_unbound {s : State} (h : s.driver.bound = false) :
    softwareEnable s = .refused .bankNotBound :=
  throughBank_unbound h _

/-- Without a bank bound `softwareDisable` is refused. -/
theorem softwareDisable_unbound {s : State} (h : s.driver.bound = false) :
    softwareDisable s = .refused .bankNotBound :=
  throughBank_unbound h _

/-- Without a bank bound `minimizeMotorCurrent` is refused. -/
theorem minimizeMotorCurrent_unbound {s : State} (h : s.driver.bound = false) :
    minimizeMotorCurrent s = .refused .bankNotBound :=
  throughBank_unbound h _

/-- Settles O60: each procedure works through the bank, `enable` and `disable` after the hardware stage, which
binds none. -/
theorem driverIsRefusedBeforeSetup : Obligations.DriverIsRefusedBeforeSetup := by
  intro s p run hold delay h
  have henable : (hardwareEnabled s).driver.bound = false := (hardwareEnabled_bound s).trans h
  have hdisable : (hardwareDisabled s).driver.bound = false := (hardwareDisabled_bound s).trans h
  have hrefused := throughBank_unbound h
  exact ⟨softwareEnable_unbound h, softwareDisable_unbound h, softwareEnable_unbound henable,
    softwareDisable_unbound hdisable, minimizeMotorCurrent_unbound h,
    hrefused _, hrefused _, hrefused _, hrefused _, hrefused _, hrefused _, hrefused _⟩

end Sys2Proof.Machine
